-- ==== Sys2Proof/Word.lean ====
section
/-! DEFINITION. The words the host and the core exchange: bytes, 5-bit symbols, 128-bit operands, and the request
record (spec/00_scope.md R8 and R10, spec/30_encoding.md R39). -/

namespace Sys2Proof

/-- One character byte, or one byte of an identifier (R8: CHAR_W = 8). -/
abbrev Byte := BitVec 8

/-- A 5-bit symbol 0..31 (R8: SYM_W = 5). -/
abbrev Sym := BitVec 5

/-- A 128-bit operand or result; an identifier is carried as its value V (R8: ID_W = 128; 20_memory.md R28). -/
abbrev Word := BitVec 128

/-- One request as the host presents it (30_encoding.md R39): the command word, the two operands and the character
sequence CIN. `ended` says whether the host has ended CIN (the `last` marker of 70_reset_and_hazards.md R90); a request
with `ended = false` is one whose CIN never ends (R93). -/
structure Request where
  cmd   : BitVec 8
  a     : Word
  b     : Word
  cin   : List Byte
  ended : Bool
  deriving DecidableEq, Repr

end Sys2Proof
end

