-- ==== Sys2Proof/Syntax.lean ====
section
/-! DEFINITION. The eight commands with the operands each of them reads (spec/30_encoding.md R41, R43 and R48), one
constructor per row of spec/opcode_table.json. Operand widths are in the types, so the machine never sees a bit of A or B
that its command ignores. -/

namespace Sys2Proof

/-- A command with its operands assembled (30_encoding.md R43). -/
inductive Instr where
  /-- CENC, 41_symbols.md R57: the symbol A[4:0]. -/
  | cenc (sym : Sym)
  /-- CDEC, 41_symbols.md R58: the character byte A[7:0]. -/
  | cdec (c : Byte)
  /-- PACK, 40_layout.md R49: timestamp_ms A[63:0] and the entropy B[79:0]. -/
  | pack (ms : BitVec 64) (ent : BitVec 80)
  /-- FMT, 42_format.md R62: the identifier A. -/
  | fmt (v : Word)
  /-- PARSE, 43_parse.md R69: the character stream CIN. -/
  | parse (cin : List Byte)
  /-- PARSE.LAX, 43_parse.md R70: the character stream CIN. -/
  | parseLax (cin : List Byte)
  /-- XTS, 40_layout.md R50: the identifier A. -/
  | xts (v : Word)
  /-- CMP, 40_layout.md R52: the identifiers A and B. -/
  | cmp (a b : Word)
  deriving DecidableEq, Repr

end Sys2Proof
end

