-- ==== Sys2Proof/WellFormed.lean ====
section
/-! DEFINITION. What makes a request well formed: a legal command word (spec/30_encoding.md R42) and a CIN the host has
ended (spec/70_reset_and_hazards.md R90). A term of Instr needs no further check: the widths of R43 are in its types, and
CIN may have any length. Nothing here is run by the machine; the claims about decoding are stated in these words. -/

namespace Sys2Proof

/-- Legality of a command word, R42's formula. -/
def legalCommand (cmd : BitVec 8) : Bool :=
  cmd.extractLsb' 5 3 == 0b000#3
    && [0x1#4, 0x2#4, 0x3#4, 0x4#4, 0x5#4, 0x6#4, 0x7#4].contains (cmd.extractLsb' 0 4)
    && (!cmd.getLsbD 4 || cmd.extractLsb' 0 4 == 0x5#4)

/-- A request the core answers with its command's own effect or error: a legal command word and an ended CIN. -/
def Request.wellFormed (q : Request) : Bool :=
  legalCommand q.cmd && q.ended

end Sys2Proof
end

