-- ==== Sys2Proof/Decode.lean ====
section
/-! DEFINITION. Command decoding and operand assembly (spec/30_encoding.md R40 to R43), and the encoder (the operand
placement of R48). Decoding is total on every request and rejects by name. -/

namespace Sys2Proof

/-- Why a request is no instruction. The spec has one reason (60_exceptions.md R77). -/
inductive DecodeError where
  /-- The command word is none of the eight of R41: 248 of the 256 values (R42). -/
  | illegalCommand
  deriving DecidableEq, Repr

/-- The instruction a request stands for. The command word selects it (R41, exact match); the operands are the bits R43
lists, everything else is dropped here. -/
def decode (q : Request) : Except DecodeError Instr :=
  match q.cmd with
  | 0x01#8 => .ok (.cenc (q.a.extractLsb' 0 5))
  | 0x02#8 => .ok (.cdec (q.a.extractLsb' 0 8))
  | 0x03#8 => .ok (.pack (q.a.extractLsb' 0 64) (q.b.extractLsb' 0 80))
  | 0x04#8 => .ok (.fmt q.a)
  | 0x05#8 => .ok (.parse q.cin)
  | 0x15#8 => .ok (.parseLax q.cin)
  | 0x06#8 => .ok (.xts q.a)
  | 0x07#8 => .ok (.cmp q.a q.b)
  | _ => .error .illegalCommand

/-- Whether an instruction reads CIN, and so waits for its end: PARSE and PARSE.LAX only (R43; R90 "for PARSE/PARSE.LAX,
CIN"). -/
def readsStream : Instr → Bool
  | .parse _ => true
  | .parseLax _ => true
  | .cenc _ => false
  | .cdec _ => false
  | .pack _ _ => false
  | .fmt _ => false
  | .xts _ => false
  | .cmp _ _ => false

/-- The command word of an instruction: the CMD column of R41. -/
def commandWord : Instr → BitVec 8
  | .cenc _ => 0x01#8
  | .cdec _ => 0x02#8
  | .pack _ _ => 0x03#8
  | .fmt _ => 0x04#8
  | .parse _ => 0x05#8
  | .parseLax _ => 0x15#8
  | .xts _ => 0x06#8
  | .cmp _ _ => 0x07#8

/-- Operand A as R48 places it; operands a mnemonic omits are zero. -/
def operandA : Instr → Word
  | .cenc sym => sym.setWidth 128
  | .cdec c => c.setWidth 128
  | .pack ms _ => ms.setWidth 128
  | .fmt v => v
  | .parse _ => 0#128
  | .parseLax _ => 0#128
  | .xts v => v
  | .cmp a _ => a

/-- Operand B as R48 places it. -/
def operandB : Instr → Word
  | .pack _ ent => ent.setWidth 128
  | .cmp _ b => b
  | .cenc _ => 0#128
  | .cdec _ => 0#128
  | .fmt _ => 0#128
  | .parse _ => 0#128
  | .parseLax _ => 0#128
  | .xts _ => 0#128

/-- CIN as R48 places it. -/
def operandCin : Instr → List Byte
  | .parse cin => cin
  | .parseLax cin => cin
  | .cenc _ => []
  | .cdec _ => []
  | .pack _ _ => []
  | .fmt _ => []
  | .xts _ => []
  | .cmp _ _ => []

/-- The request R48 writes for an instruction, its CIN ended. -/
def encode (i : Instr) : Request :=
  { cmd := commandWord i, a := operandA i, b := operandB i, cin := operandCin i, ended := true }

/-- The request with command word `w`, both operands zero and an empty, ended CIN: what the opcode table's numbering
gives, since its eight bits are the command word and it gives A, B and CIN no bits. -/
def tableRequest (w : Nat) : Request :=
  { cmd := BitVec.ofNat 8 w, a := 0#128, b := 0#128, cin := [], ended := true }

/-- The instruction the decoder reads from the table's numbering of a command word; the table gives every row 8 bits,
and no other length is a command (R39: one command-word length). -/
def decodeTableWord (nbits w : Nat) : Option Instr :=
  if nbits = 8 ∧ w < 256 then (decode (tableRequest w)).toOption else none

end Sys2Proof
end

