-- ==== Sys2Proof/Config.lean ====
section
/-! DEFINITION. What the spec leaves OPEN and a rule depends on: the free value LAX_SHORT_FILL. (LATENCY, the other OPEN
parameter of 00_scope.md R8, has no place here: R95 says that no rule depends on it.) -/

namespace Sys2Proof

/-- LAX_SHORT_FILL (00_scope.md R8, 43_parse.md R71): the value PARSE.LAX of fewer than 26 bytes writes to R. It has no
body, so nothing can be proved of it. The first argument is the number of the draw (State.draws), so that each draw is a
fresh value. The second is the request's CIN, so that two draws of one number for different inputs need not agree either.
DESIGN CHOICE (log entry 3): the arguments; safe, every value is admitted. -/
opaque Config.laxShortFill : Nat → List Byte → Word

end Sys2Proof
end

