-- ==== Sys2Proof/Machine/State.lean ====
section
/-! DEFINITION. The state of the machine (spec/10_state.md R14 and R24), the host's actions it is driven by
(spec/70_reset_and_hazards.md R90), and the reasons a step can stop. State is plain data. -/

namespace Sys2Proof.Machine

/-- What the host does next, in the order it does it (20_memory.md R36, 70_reset_and_hazards.md R90).
DESIGN CHOICE (log entry 1): the host's acts are data of State, because a step takes the state alone; safe. -/
inductive HostAction where
  /-- Issue one request: command word, A, B and CIN, presented whole (10_state.md R15). -/
  | issue (q : Request)
  /-- Wait for the response to the outstanding request, the duty "at most one request outstanding" of R90. -/
  | await
  /-- Assert reset and release it again (R88). DESIGN CHOICE (log entry 13): the two are one action, so a request issued
  while reset is still asserted, of which R88 says nothing, cannot be expressed; unsafe for a host that issues one. -/
  | reset
  deriving DecidableEq, Repr

/-- The machine. `r`, `st`, `cout` and `coutLen` are the whole architectural state (10_state.md R14). `outstanding` is the
request in progress (70_reset_and_hazards.md R88, R92); `inbox` and `draws` are the model's own (log entries 1 and 3). -/
structure State where
  /-- The result register R (R19). -/
  r           : Word
  /-- The status register ST (R20). -/
  st          : BitVec 8
  /-- The output character buffer COUT[0..25] (R22). -/
  cout        : Vector Byte 26
  /-- COUT_LEN (R22). -/
  coutLen     : BitVec 5
  /-- The request the core has accepted and not answered; none when the core is idle. -/
  outstanding : Option Request
  /-- The host's actions still to come, the next one first. -/
  inbox       : List HostAction
  /-- How many LAX_SHORT_FILL draws have been made; names the next one. No statement rests on its value. -/
  draws       : Nat
  deriving DecidableEq, Repr

/-- Reasons the machine stops with a fault: none. The block "has no traps", "never halts", and answers every error in
the response registers (60_exceptions.md R74). -/
inductive Fault where
  deriving DecidableEq, Repr

/-- Reasons the model gives no step. -/
inductive Refusal where
  /-- Raised by exec's arm of a command that has no meaning yet (there is none now). Safe: the model stops. -/
  | notModelled (mnemonic : String)
  /-- Raised by `turn` when the host issues a request while an earlier one is outstanding: "The model gives no step to a
  request issued while another is outstanding" (70_reset_and_hazards.md R92; 93_implementation_defined.md I7). Safe: the
  model stops. -/
  | requestWhileOutstanding
  deriving DecidableEq, Repr

/-- The machine right after reset (10_state.md R24; the core is idle, 70_reset_and_hazards.md R88). The host has done
nothing yet, and no draw has been made (DESIGN CHOICE, log entries 2 and 3; safe). -/
def State.reset : State where
  r := 0x00000000000000000000000000000000#128
  st := 0x00#8
  cout := Vector.replicate 26 0x00#8
  coutLen := 0#5
  outstanding := none
  inbox := []
  draws := 0

end Sys2Proof.Machine
end

