-- ==== Sys2Proof/Machine/Flags.lean ====
section
/-! DEFINITION. The status register's bits (spec/10_state.md R20) and the three error codes (spec/60_exceptions.md
R76). -/

namespace Sys2Proof.Machine

/-- The five named bits of ST (R20); a bit a rule does not name is written 0 (R21). -/
structure StatusBits where
  err         : Bool := false
  illegalCmd  : Bool := false
  invalidChar : Bool := false
  wrongLength : Bool := false
  topBits     : Bool := false
  deriving DecidableEq, Repr

/-- ST = {3'b000, TOPBITS, WRONG_LENGTH, INVALID_CHAR, ILLEGAL_CMD, ERR} (R20; 41_symbols.md R58). -/
def statusWord (b : StatusBits) : BitVec 8 :=
  0b000#3 ++ BitVec.ofBool b.topBits ++ BitVec.ofBool b.wrongLength ++ BitVec.ofBool b.invalidChar
    ++ BitVec.ofBool b.illegalCmd ++ BitVec.ofBool b.err

/-- ST.ERR, bit 0: the request was rejected. -/
def stErr (st : BitVec 8) : Bool := st.getLsbD 0
/-- ST.ILLEGAL_CMD, bit 1. -/
def stIllegalCmd (st : BitVec 8) : Bool := st.getLsbD 1
/-- ST.INVALID_CHAR, bit 2. -/
def stInvalidChar (st : BitVec 8) : Bool := st.getLsbD 2
/-- ST.WRONG_LENGTH, bit 3. -/
def stWrongLength (st : BitVec 8) : Bool := st.getLsbD 3
/-- ST.TOPBITS, bit 4. -/
def stTopBits (st : BitVec 8) : Bool := st.getLsbD 4
/-- ST[7:5], reserved. -/
def stReserved (st : BitVec 8) : BitVec 3 := st.extractLsb' 5 3

/-- The three errors of 60_exceptions.md R76. Their `info` argument is recorded nowhere (R75), so it has no place
here. -/
inductive CodecError where
  | illegalCommand
  | wrongLength
  | invalidCharacter
  deriving DecidableEq, Repr

/-- The ST value of an error (R76). -/
def errorCode : CodecError → BitVec 8
  | .illegalCommand => 0x03#8
  | .wrongLength => 0x09#8
  | .invalidCharacter => 0x05#8

end Sys2Proof.Machine
end

