-- ==== Sys2Proof/Machine/Operands.lean ====
section
/-! DEFINITION. The constant tables ALPHABET and DECODE (spec/41_symbols.md R54, R55), the identifier's bytes and fields
(spec/20_memory.md R28 to R31), the 26 groups (spec/42_format.md R59, R60) and their reassembly (spec/43_parse.md R65 to
R68). Pure functions; no state. -/

namespace Sys2Proof.Machine

/-! ### The tables -/

/-- ALPHABET, R54's table: the ASCII bytes of `0123456789ABCDEFGHJKMNPQRSTVWXYZ`. -/
def alphabet : Vector Byte 32 :=
  #v[0x30#8, 0x31#8, 0x32#8, 0x33#8, 0x34#8, 0x35#8, 0x36#8, 0x37#8,
     0x38#8, 0x39#8, 0x41#8, 0x42#8, 0x43#8, 0x44#8, 0x45#8, 0x46#8,
     0x47#8, 0x48#8, 0x4A#8, 0x4B#8, 0x4D#8, 0x4E#8, 0x50#8, 0x51#8,
     0x52#8, 0x53#8, 0x54#8, 0x56#8, 0x57#8, 0x58#8, 0x59#8, 0x5A#8]

/-- ALPHABET[s]. -/
def encodeSymbol (s : Sym) : Byte := alphabet[s.toNat]'s.isLt

/-- One entry of DECODE, a pair of 1 + 5 bits (R55). -/
structure DecodeEntry where
  valid : Bool
  sym   : Sym
  deriving DecidableEq, Repr

/-- A byte with no symbol: `valid = 0`, `sym = 0` (R55). -/
def invalidEntry : DecodeEntry := { valid := false, sym := 0#5 }

/-- A byte that stands for symbol `n`. -/
def symbolEntry (n : Nat) : DecodeEntry := { valid := true, sym := BitVec.ofNat 5 n }

/-- A row of R55's table that holds no valid byte. -/
def invalidRow : List DecodeEntry := List.replicate 16 invalidEntry

/-- Row 3_ of R55's table: the digits. -/
def digitRow : List DecodeEntry :=
  [symbolEntry 0, symbolEntry 1, symbolEntry 2, symbolEntry 3, symbolEntry 4, symbolEntry 5, symbolEntry 6,
   symbolEntry 7, symbolEntry 8, symbolEntry 9, invalidEntry, invalidEntry, invalidEntry, invalidEntry, invalidEntry,
   invalidEntry]

/-- Rows 4_ and 6_ of R55's table: A to O, in either case. -/
def letterRowLow : List DecodeEntry :=
  [invalidEntry, symbolEntry 10, symbolEntry 11, symbolEntry 12, symbolEntry 13, symbolEntry 14, symbolEntry 15,
   symbolEntry 16, symbolEntry 17, symbolEntry 1, symbolEntry 18, symbolEntry 19, symbolEntry 1, symbolEntry 20,
   symbolEntry 21, symbolEntry 0]

/-- Rows 5_ and 7_ of R55's table: P to Z, in either case. -/
def letterRowHigh : List DecodeEntry :=
  [symbolEntry 22, symbolEntry 23, symbolEntry 24, symbolEntry 25, symbolEntry 26, symbolEntry 0, symbolEntry 27,
   symbolEntry 28, symbolEntry 29, symbolEntry 30, symbolEntry 31, invalidEntry, invalidEntry, invalidEntry,
   invalidEntry, invalidEntry]

/-- The row of DECODE for a high nibble, R55's table in full. -/
def decodeRow (hi : BitVec 4) : List DecodeEntry :=
  match hi with
  | 0x3#4 => digitRow
  | 0x4#4 => letterRowLow
  | 0x5#4 => letterRowHigh
  | 0x6#4 => letterRowLow
  | 0x7#4 => letterRowHigh
  | _ => invalidRow

/-- DECODE[c]: the row of c's high nibble, the column of its low nibble. -/
def decodeChar (c : Byte) : DecodeEntry :=
  (decodeRow (c.extractLsb' 4 4)).getD (c.extractLsb' 0 4).toNat invalidEntry

/-! ### The identifier -/

/-- id[i] = V[127 - 8*i : 120 - 8*i] (R28). -/
def idByte (v : Word) (i : Fin 16) : Byte := v.extractLsb' (120 - 8 * i.val) 8

/-- id[0..15], byte 0 first (R28). -/
def idBytes (v : Word) : List Byte := (List.finRange 16).map (idByte v)

/-- ts = V[127:80] (R29). -/
def timestampOf (v : Word) : BitVec 48 := v.extractLsb' 80 48

/-- ent = V[79:0] (R29). -/
def entropyOf (v : Word) : BitVec 80 := v.extractLsb' 0 80

/-- V = {ts[47:0], ent[79:0]} (R29). -/
def packIdentifier (ts : BitVec 48) (ent : BitVec 80) : Word := ts ++ ent

/-- CMP's c as a 2-bit two's-complement value (40_layout.md R52): the earliest differing byte decides, unsigned. -/
def compareBytes : List Byte → List Byte → BitVec 2
  | x :: xs, y :: ys =>
    if x ≠ y then (if x.ult y then 0b11#2 else 0b01#2) else compareBytes xs ys
  | [], _ => 0b00#2
  | _ :: _, [] => 0b00#2

/-! ### Formatting -/

/-- W = {2'b00, V} (42_format.md R59). -/
def paddedView (v : Word) : BitVec 130 := 0b00#2 ++ v

/-- d[k] = W[129 - 5*k : 125 - 5*k] (R60). -/
def group (w : BitVec 130) (k : Fin 26) : Sym := w.extractLsb' (125 - 5 * k.val) 5

/-- The 26 characters of an identifier (R62). -/
def formatText (v : Word) : Vector Byte 26 :=
  Vector.ofFn fun k => encodeSymbol (group (paddedView v) k)

/-! ### Parsing -/

/-- DECODE of the positions k < min(n, 26); later positions are never decoded (43_parse.md R65). -/
def decodedEntries (cin : List Byte) : List DecodeEntry := (cin.take 26).map decodeChar

/-- d[0], d[1], ... (R65); an invalid byte contributes symbol 0. -/
def decodedSymbols (cin : List Byte) : List Sym := (decodedEntries cin).map DecodeEntry.sym

/-- The flag `inv`: some decoded position has v[k] = 0 (R65). -/
def anyInvalid (cin : List Byte) : Bool := (decodedEntries cin).any fun e => !e.valid

/-- `topbits`: there is a first character and its symbol is at least 8 (R68). -/
def firstSymbolTop (cin : List Byte) : Bool :=
  match decodedSymbols cin with
  | [] => false
  | d :: _ => (8#5).ule d

/-- W = {d[0], d[1], ...}, d[0] most significant (R66). -/
def concatSymbols (ds : List Sym) : BitVec 130 :=
  ds.foldl (fun w d => (w <<< 5) ||| d.setWidth 130) 0#130

/-- V = W[127:0]; W[129:128] is discarded (R66). -/
def reassemble (ds : List Sym) : Word := (concatSymbols ds).extractLsb' 0 128

end Sys2Proof.Machine
end

