-- ==== Sys2Proof/Machine/Ops.lean ====
section
/-! DEFINITION. The named operations on State: the three shapes of a response (spec/10_state.md R19, R21, R22), the error
response (spec/60_exceptions.md R75), the free draw (spec/43_parse.md R71), and what accepting a request, answering it and
reset do to the machine (spec/70_reset_and_hazards.md R88, R90). There is no memory and no trap (R25, R74): the error
response is this block's one way of taking an exception, and nothing returns from it (R83). -/

namespace Sys2Proof.Machine

/-- The response of a request that writes neither R nor COUT: ST whole, COUT_LEN 0 (R21, R22). -/
def respond (st : BitVec 8) (s : State) : State := { s with st := st, coutLen := 0#5 }

/-- The response of a request with a result: R whole, ST whole, COUT_LEN 0, COUT unchanged (R19, R21, R22). -/
def respondResult (r : Word) (st : BitVec 8) (s : State) : State :=
  { s with r := r, st := st, coutLen := 0#5 }

/-- The response of FMT: all 26 bytes of COUT, COUT_LEN 26, ST 0x00, R unchanged (R22; 42_format.md R62). -/
def respondText (text : Vector Byte 26) (s : State) : State :=
  { s with cout := text, coutLen := 26#5, st := 0x00#8 }

/-- `raise <Error>(info)`: ST is the error's code, COUT_LEN 0, R and COUT unchanged (60_exceptions.md R75). -/
def raiseError (e : CodecError) (s : State) : State := respond (errorCode e) s

/-- The state after a free draw: the next draw is another one. -/
def afterDraw (s : State) : State := { s with draws := s.draws + 1 }

/-- The response of a request whose result is LAX_SHORT_FILL (R71): the value is free, the rest is as for any result. -/
def respondDraw (cin : List Byte) (st : BitVec 8) (s : State) : State :=
  respondResult (Config.laxShortFill s.draws cin) st (afterDraw s)

/-- The core accepts a request and is no longer idle; no register changes (70 R90; 20_memory.md R35). -/
def accept (q : Request) (s : State) : State :=
  { s with outstanding := some q, inbox := s.inbox.tail }

/-- The host's next action, an await while the core is idle, is over and changes nothing (DESIGN CHOICE, log entry 11;
safe). -/
def passAction (s : State) : State := { s with inbox := s.inbox.tail }

/-- The request in progress is taken to its response; the host's `await`, if that is what it does next, is over with it. -/
def release (s : State) : State := { s with outstanding := none, inbox := s.inbox.tail }

/-- Reset is asserted, and released before the host's next action (70 R88; DESIGN CHOICE, log entry 13; unsafe): the four registers take their reset values (10_state.md R24), and a request in progress
is abandoned. What the host does afterwards is still to come, and later draws are fresh ones (DESIGN CHOICE, log entry
7; safe). -/
def assertReset (s : State) : State :=
  { State.reset with inbox := s.inbox.tail, draws := s.draws }

end Sys2Proof.Machine
end

