-- ==== Sys2Proof/Machine/Format.lean ====
section
/-! DEFINITION. The ulid_formatter (spec/42_format.md): FMT. -/

namespace Sys2Proof.Machine

/-- FMT (R62): COUT is written, R is not. -/
def execFmt (v : Word) (s : State) : Host.Outcome State Fault Refusal :=
  .next (respondText (formatText v) s)

end Sys2Proof.Machine
end

