-- ==== Sys2Proof/Machine/Layout.lean ====
section
/-! DEFINITION. The binary layout operations (spec/40_layout.md): PACK, XTS and CMP. -/

namespace Sys2Proof.Machine

/-- PACK (R49): the low 48 bits of the timestamp over the entropy; higher bits are dropped silently. -/
def execPack (ms : BitVec 64) (ent : BitVec 80) (s : State) : Host.Outcome State Fault Refusal :=
  .next (respondResult (packIdentifier (ms.extractLsb' 0 48) ent) (statusWord {}) s)

/-- XTS (R50). -/
def execXts (v : Word) (s : State) : Host.Outcome State Fault Refusal :=
  .next (respondResult ((timestampOf v).setWidth 128) (statusWord {}) s)

/-- CMP (R52): c from the bytes, sign-extended into R. -/
def execCmp (a b : Word) (s : State) : Host.Outcome State Fault Refusal :=
  .next (respondResult ((compareBytes (idBytes a) (idBytes b)).signExtend 128) (statusWord {}) s)

end Sys2Proof.Machine
end

