-- ==== Sys2Proof/Machine/Parse.lean ====
section
/-! DEFINITION. The ulid_parser (spec/43_parse.md): PARSE and PARSE.LAX. -/

namespace Sys2Proof.Machine

/-- PARSE (R69): the length is checked first, then the characters; either error rejects the whole identifier. -/
def execParse (cin : List Byte) (s : State) : Host.Outcome State Fault Refusal :=
  if cin.length ≠ 26 then .next (raiseError .wrongLength s)
  else if anyInvalid cin then .next (raiseError .invalidCharacter s)
  else .next (respondResult (reassemble (decodedSymbols cin)) (statusWord { topBits := firstSymbolTop cin }) s)

/-- ST after PARSE.LAX (R70): everything is reported and nothing rejected. -/
def laxStatus (cin : List Byte) : BitVec 8 :=
  statusWord { topBits := firstSymbolTop cin, wrongLength := cin.length != 26, invalidChar := anyInvalid cin }

/-- PARSE.LAX (R70): with 26 bytes or more the first 26 give R; with fewer, R is a free value (R71). -/
def execParseLax (cin : List Byte) (s : State) : Host.Outcome State Fault Refusal :=
  if 26 ≤ cin.length then .next (respondResult (reassemble (decodedSymbols cin)) (laxStatus cin) s)
  else .next (respondDraw cin (laxStatus cin) s)

end Sys2Proof.Machine
end

