-- ==== Sys2Proof/Machine/Symbols.lean ====
section
/-! DEFINITION. The base32_codec unit (spec/41_symbols.md): CENC and CDEC. -/

namespace Sys2Proof.Machine

/-- CENC (R57). -/
def execCenc (sym : Sym) (s : State) : Host.Outcome State Fault Refusal :=
  .next (respondResult ((encodeSymbol sym).setWidth 128) (statusWord {}) s)

/-- CDEC (R58): an invalid byte is reported in ST and R is written either way. -/
def execCdec (c : Byte) (s : State) : Host.Outcome State Fault Refusal :=
  .next (respondResult ((decodeChar c).sym.setWidth 128) (statusWord { invalidChar := !(decodeChar c).valid }) s)

end Sys2Proof.Machine
end

