-- ==== Sys2Proof/Machine/Dispatch.lean ====
section
/-! DEFINITION. exec: one arm per command of spec/30_encoding.md R41, each a call of its meaning. -/

namespace Sys2Proof.Machine

def exec (i : Instr) (s : State) : Host.Outcome State Fault Refusal :=
  match i with
  | .cenc sym => Sys2Proof.Machine.execCenc sym s
  | .cdec c => Sys2Proof.Machine.execCdec c s
  | .pack ms ent => Sys2Proof.Machine.execPack ms ent s
  | .fmt v => Sys2Proof.Machine.execFmt v s
  | .parse cin => Sys2Proof.Machine.execParse cin s
  | .parseLax cin => Sys2Proof.Machine.execParseLax cin s
  | .xts v => Sys2Proof.Machine.execXts v s
  | .cmp a b => Sys2Proof.Machine.execCmp a b s

end Sys2Proof.Machine
end

