-- ==== Sys2Proof/Machine/Serve.lean ====
section
/-! DEFINITION. How the core and the host take turns (spec/70_reset_and_hazards.md R88 to R93): answering the outstanding
request, and one turn of the machine. Step.lean only calls it. -/

namespace Sys2Proof.Machine

/-- The response to a request: its instruction's effect, or IllegalCommand, which no operand can change (60_exceptions.md
R77). -/
def execute (q : Request) (s : State) : Host.Outcome State Fault Refusal :=
  match decode q with
  | .ok i => exec i s
  | .error .illegalCommand => .next (raiseError .illegalCommand s)

/-- Whether the core still waits for the end of CIN: a command that reads CIN, and a CIN the host has not ended (R90,
R93). Every other request, an illegal one too, is complete as it stands (R43, R77; DEDUCED, log entry 6; unsafe). -/
def awaitsStream (q : Request) : Bool :=
  match decode q with
  | .ok i => readsStream i && !q.ended
  | .error .illegalCommand => false

/-- The outstanding request is answered, in one step (R9, R35); or the core waits on, unchanged, for a CIN that never
ends (R93; DESIGN CHOICE, log entry 6: a wait and not a fault; safe). -/
def serve (q : Request) (s : State) : Host.Outcome State Fault Refusal :=
  if awaitsStream q then .next s else execute q (release s)

/-- One turn. Idle: the core keeps its registers (60_exceptions.md R87) until the host acts. A request in progress: it is
answered, unless the host asserts reset first (R88) or breaks its duty with a second request (R92).
DESIGN CHOICE (log entry 4): accepting and answering are two steps; safe. -/
def turn (s : State) : Host.Outcome State Fault Refusal :=
  match s.outstanding, s.inbox with
  | none, [] => .next s
  | none, .issue q :: _ => .next (accept q s)
  | none, .await :: _ => .next (passAction s)
  | none, .reset :: _ => .next (assertReset s)
  | some q, [] => serve q s
  | some _, .issue _ :: _ => .refused .requestWhileOutstanding
  | some q, .await :: _ => serve q s
  | some _, .reset :: _ => .next (assertReset s)

end Sys2Proof.Machine
end

