-- ==== Sys2Proof/Machine/Step.lean ====
section
/-! DEFINITION. One step of the machine, and how the host places a command as the one the next step runs. -/

namespace Sys2Proof.Machine

/-- One step: one turn of host and core (Machine/Serve.lean). -/
def step (s : State) : Host.Outcome State Fault Refusal := turn s

/-- `s` with the command word `w` issued: outstanding, its operands zero and its CIN empty and ended, and the host
awaiting the response, so that the next step answers it (log entry 2: this stands for the host's issuing it). The table
gives every command 8 bits, so `nbits` selects nothing. -/
def State.withFetchWord (s : State) (_nbits w : Nat) : State :=
  { s with outstanding := some (tableRequest w), inbox := .await :: s.inbox }

end Sys2Proof.Machine
end

