-- ==== Sys2Proof/Safety/Reference.lean ====
section
/-! DEFINITION. The spec's tables and laws in a second wording, independent of the machine's own definitions, for the
claims to speak in: the alphabet as characters (spec/41_symbols.md R54), DECODE as ranges (R55), which operand bits a
command reads (spec/30_encoding.md R43), and the two byte tables (spec/42_format.md R61, spec/43_parse.md R67). The machine
uses none of it. -/

namespace Sys2Proof.Reference

/-- The alphabet `0123456789ABCDEFGHJKMNPQRSTVWXYZ` (R54). -/
def alphabetChars : List Char :=
  ['0', '1', '2', '3', '4', '5', '6', '7', '8', '9', 'A', 'B', 'C', 'D', 'E', 'F', 'G', 'H', 'J', 'K', 'M', 'N', 'P',
   'Q', 'R', 'S', 'T', 'V', 'W', 'X', 'Y', 'Z']

/-- The code of the n-th character of the alphabet. -/
def charCode (n : Nat) : Nat := (alphabetChars.getD n '?').toNat

/-- The symbol of a byte, R55's first table, row by row; none where the byte is invalid. -/
def symbolOf (c : Nat) : Option Nat :=
  if 0x30 ≤ c ∧ c ≤ 0x39 then some (c - 0x30)
  else if 0x41 ≤ c ∧ c ≤ 0x48 then some (c - 0x41 + 10)
  else if 0x61 ≤ c ∧ c ≤ 0x68 then some (c - 0x61 + 10)
  else if c = 0x49 ∨ c = 0x69 then some 1
  else if c = 0x4A ∨ c = 0x6A then some 18
  else if c = 0x4B ∨ c = 0x6B then some 19
  else if c = 0x4C ∨ c = 0x6C then some 1
  else if c = 0x4D ∨ c = 0x6D then some 20
  else if c = 0x4E ∨ c = 0x6E then some 21
  else if c = 0x4F ∨ c = 0x6F then some 0
  else if 0x50 ≤ c ∧ c ≤ 0x54 then some (c - 0x50 + 22)
  else if 0x70 ≤ c ∧ c ≤ 0x74 then some (c - 0x70 + 22)
  else if c = 0x55 ∨ c = 0x75 then some 0
  else if 0x56 ≤ c ∧ c ≤ 0x5A then some (c - 0x56 + 27)
  else if 0x76 ≤ c ∧ c ≤ 0x7A then some (c - 0x76 + 27)
  else none

/-- The byte has a symbol. -/
def hasSymbol (c : Byte) : Bool := (symbolOf c.toNat).isSome

/-- The symbol a byte contributes to a parse: zero bits where it has none (43_parse.md R65). -/
def symbolValue (c : Byte) : Nat := (symbolOf c.toNat).getD 0

/-- The characters read as a base-32 number, the first one most significant (R66). -/
def base32Value (cin : List Byte) : Nat := cin.foldl (fun n c => 32 * n + symbolValue c) 0

/-- The first character's symbol is at least 8 (R68). -/
def firstIsTop (cin : List Byte) : Bool :=
  match cin with
  | [] => false
  | c :: _ => 8 ≤ symbolValue c

/-- The eight command words of R41. -/
def commandWords : List (BitVec 8) := [0x01#8, 0x02#8, 0x03#8, 0x04#8, 0x05#8, 0x15#8, 0x06#8, 0x07#8]

/-- Two requests agree on the operand bits that R43 lists for the first one's command. -/
def ReadsSame (p q : Request) : Prop :=
  (p.cmd = 0x01#8 → p.a.toNat % 2 ^ 5 = q.a.toNat % 2 ^ 5)
    ∧ (p.cmd = 0x02#8 → p.a.toNat % 2 ^ 8 = q.a.toNat % 2 ^ 8)
    ∧ (p.cmd = 0x03#8 → p.a.toNat % 2 ^ 64 = q.a.toNat % 2 ^ 64 ∧ p.b.toNat % 2 ^ 80 = q.b.toNat % 2 ^ 80)
    ∧ (p.cmd = 0x04#8 ∨ p.cmd = 0x06#8 → p.a = q.a)
    ∧ (p.cmd = 0x05#8 ∨ p.cmd = 0x15#8 → p.cin = q.cin)
    ∧ (p.cmd = 0x07#8 → p.a = q.a ∧ p.b = q.b)

/-- id[i] of a value, as R28's sum has it. -/
def byteOf (v : Nat) (i : Nat) : Nat := v / 256 ^ (15 - i) % 256

/-- d[0], ..., d[25] from the bytes id[0..15], row by row the last column of R61's table. -/
def groupsFromBytes (id : Nat → Nat) : List Nat :=
  [id 0 >>> 5,
   id 0 &&& 0x1F,
   id 1 >>> 3,
   ((id 1 &&& 0x07) <<< 2) ||| (id 2 >>> 6),
   (id 2 >>> 1) &&& 0x1F,
   ((id 2 &&& 0x01) <<< 4) ||| (id 3 >>> 4),
   ((id 3 &&& 0x0F) <<< 1) ||| (id 4 >>> 7),
   (id 4 >>> 2) &&& 0x1F,
   ((id 4 &&& 0x03) <<< 3) ||| (id 5 >>> 5),
   id 5 &&& 0x1F,
   id 6 >>> 3,
   ((id 6 &&& 0x07) <<< 2) ||| (id 7 >>> 6),
   (id 7 >>> 1) &&& 0x1F,
   ((id 7 &&& 0x01) <<< 4) ||| (id 8 >>> 4),
   ((id 8 &&& 0x0F) <<< 1) ||| (id 9 >>> 7),
   (id 9 >>> 2) &&& 0x1F,
   ((id 9 &&& 0x03) <<< 3) ||| (id 10 >>> 5),
   id 10 &&& 0x1F,
   id 11 >>> 3,
   ((id 11 &&& 0x07) <<< 2) ||| (id 12 >>> 6),
   (id 12 >>> 1) &&& 0x1F,
   ((id 12 &&& 0x01) <<< 4) ||| (id 13 >>> 4),
   ((id 13 &&& 0x0F) <<< 1) ||| (id 14 >>> 7),
   (id 14 >>> 2) &&& 0x1F,
   ((id 14 &&& 0x03) <<< 3) ||| (id 15 >>> 5),
   id 15 &&& 0x1F]

/-- id[0], ..., id[15] from the symbols d[0..25], row by row the last column of R67's table. -/
def bytesFromSymbols (d : Nat → Nat) : List Nat :=
  [((d 0 &&& 0x07) <<< 5) ||| d 1,
   (d 2 <<< 3) ||| (d 3 >>> 2),
   ((d 3 &&& 0x03) <<< 6) ||| (d 4 <<< 1) ||| (d 5 >>> 4),
   ((d 5 &&& 0x0F) <<< 4) ||| (d 6 >>> 1),
   ((d 6 &&& 0x01) <<< 7) ||| (d 7 <<< 2) ||| (d 8 >>> 3),
   ((d 8 &&& 0x07) <<< 5) ||| d 9,
   (d 10 <<< 3) ||| (d 11 >>> 2),
   ((d 11 &&& 0x03) <<< 6) ||| (d 12 <<< 1) ||| (d 13 >>> 4),
   ((d 13 &&& 0x0F) <<< 4) ||| (d 14 >>> 1),
   ((d 14 &&& 0x01) <<< 7) ||| (d 15 <<< 2) ||| (d 16 >>> 3),
   ((d 16 &&& 0x07) <<< 5) ||| d 17,
   (d 18 <<< 3) ||| (d 19 >>> 2),
   ((d 19 &&& 0x03) <<< 6) ||| (d 20 <<< 1) ||| (d 21 >>> 4),
   ((d 21 &&& 0x0F) <<< 4) ||| (d 22 >>> 1),
   ((d 22 &&& 0x01) <<< 7) ||| (d 23 <<< 2) ||| (d 24 >>> 3),
   ((d 24 &&& 0x07) <<< 5) ||| d 25]

/-- The canonical spelling of a character: `0` for `0 O o U u`, `1` for `1 I i L l`, the upper-case letter for any other
letter with a symbol, a digit itself (41_symbols.md R56); any other byte is left alone. -/
def canonicalChar (c : Nat) : Nat :=
  if c = 0x4F ∨ c = 0x6F ∨ c = 0x55 ∨ c = 0x75 then 0x30
  else if c = 0x49 ∨ c = 0x69 ∨ c = 0x4C ∨ c = 0x6C then 0x31
  else if 0x61 ≤ c ∧ c ≤ 0x7A then c - 0x20
  else c

end Sys2Proof.Reference
end

