-- ==== Sys2Proof/Safety.lean ====
section
/-! DEFINITION. What a host sees of the machine (spec/70_reset_and_hazards.md R96, spec/10_state.md R22), a host that does
its duty (R90), the invariant of the response registers (R20 to R22, spec/60_exceptions.md R76 and R81), and the host's
script for a sequence of requests (R36). Only the claims use it. -/

namespace Sys2Proof.Machine

/-- The observation after a request: the four response registers (R96). -/
structure Response where
  r       : Word
  st      : BitVec 8
  cout    : Vector Byte 26
  coutLen : BitVec 5
  deriving DecidableEq, Repr

/-- The response registers as they stand. Reading them changes nothing (20_memory.md R35). -/
def State.response (s : State) : Response := { r := s.r, st := s.st, cout := s.cout, coutLen := s.coutLen }

/-- What a host may read of COUT: COUT[0..COUT_LEN-1] (10_state.md R22, 70 R91). -/
def State.visibleText (s : State) : List Byte := s.cout.toList.take s.coutLen.toNat

/-- The values ST can hold: those of R76, 41_symbols.md R58, 43_parse.md R69 and R70. -/
def possibleStatus : List (BitVec 8) :=
  [0x00#8, 0x03#8, 0x04#8, 0x05#8, 0x08#8, 0x09#8, 0x0C#8, 0x10#8, 0x14#8, 0x18#8, 0x1C#8]

/-- A text FMT can write: 26 characters of the alphabet, the first of them one of `0` to `7` (42_format.md R63). -/
def isText (cout : Vector Byte 26) : Bool :=
  cout.toList.all (fun c => (Reference.alphabetChars.map Char.toNat).contains c.toNat)
    && decide (0x30 ≤ cout[0].toNat) && decide (cout[0].toNat ≤ 0x37)

/-- The invariant of the response registers: ST holds a possible value; COUT_LEN is 0, or it is 26 and then ST is 0x00
and COUT holds a text; COUT is as reset left it or holds a text. -/
def State.Inv (s : State) : Prop :=
  s.st ∈ possibleStatus
    ∧ (s.coutLen = 0#5 ∨ (s.coutLen = 26#5 ∧ s.st = 0x00#8 ∧ isText s.cout = true))
    ∧ (s.cout = Vector.replicate 26 0x00#8 ∨ isText s.cout = true)

/-- The host's actions keep its duties (R90): it issues a request only when none is outstanding (`busy` says whether one
is), and every request is one the core need not wait on for ever (R93): the CIN of every PARSE and PARSE.LAX is ended. Of
the other commands nothing is asked, since they do not read CIN (DEDUCED, log entry 6; unsafe). -/
def keepsDuty : Bool → List HostAction → Bool
  | _, [] => true
  | busy, .issue q :: rest => !busy && !awaitsStream q && keepsDuty true rest
  | _, .await :: rest => keepsDuty false rest
  | _, .reset :: rest => keepsDuty false rest

/-- The host keeps its duties from here on. -/
def State.dutiful (s : State) : Bool :=
  keepsDuty s.outstanding.isSome s.inbox && s.outstanding.all fun q => !awaitsStream q

/-- What a dutiful host does to run a sequence of requests: issue one, await its response, and so on (R36, R96). -/
def script (qs : List Request) : List HostAction := qs.flatMap fun q => [.issue q, .await]

/-- The requests' responses one after the other, in issue order. -/
def answerAll : List Request → State → Host.Outcome State Fault Refusal
  | [], s => .next s
  | q :: qs, s =>
    match execute q s with
    | .next t => answerAll qs t
    | .fault f => .fault f
    | .refused r => .refused r

end Sys2Proof.Machine
end

