-- ==== Sys2Proof/Certificates/Slice0/Obligations.lean ====
section
/-! DEFINITION. The statements for the provers, from the numbered rules of spec/. Statements marked derived rest on a
law the spec itself marks as derived, or on a choice or a deduction of the model; their docstrings say so. -/

open Sys2Proof Sys2Proof.Machine Sys2Proof.Reference

/-! ### Commands, decoding, steps -/

/-- A command word selects an operation only when it is one of the eight of R41, and each of the eight selects the
operation of its row, whatever the operands. -/
def Obligations.CommandWordSelectsOperation : Prop :=
  (∀ q : Request, (∃ i, decode q = .ok i) ↔ q.cmd ∈ commandWords)
    ∧ ∀ q i, decode q = .ok i →
      (q.cmd = 0x01#8 ↔ ∃ sym, i = .cenc sym) ∧ (q.cmd = 0x02#8 ↔ ∃ c, i = .cdec c)
        ∧ (q.cmd = 0x03#8 ↔ ∃ ms ent, i = .pack ms ent) ∧ (q.cmd = 0x04#8 ↔ ∃ v, i = .fmt v)
        ∧ (q.cmd = 0x05#8 ↔ ∃ cin, i = .parse cin) ∧ (q.cmd = 0x15#8 ↔ ∃ cin, i = .parseLax cin)
        ∧ (q.cmd = 0x06#8 ↔ ∃ v, i = .xts v) ∧ (q.cmd = 0x07#8 ↔ ∃ a b, i = .cmp a b)

/-- From R42: a word is legal exactly when it selects an operation; an illegal one raises IllegalCommand whatever the
operands and CIN; 248 of the 256 words are illegal. That the core does not wait for the end of an illegal request's CIN
(`awaitsStream q = false`) is the model's deduction from R43 and R77 (DEDUCED, log entry 6), not R42's. -/
def Obligations.LegalityFormulaIsTheEightWords : Prop :=
  (∀ q : Request, legalCommand q.cmd = true ↔ ∃ i, decode q = .ok i)
    ∧ (∀ (q : Request) (s : State), legalCommand q.cmd = false →
        awaitsStream q = false ∧ execute q s = .next { s with st := 0x03#8, coutLen := 0#5 })
    ∧ ((List.range 256).filter fun w => !legalCommand (BitVec.ofNat 8 w)).length = 248

/-- From R43: each command's operands are the listed bits of A, B and CIN, and PACK drops A[63:48]; two requests with one
command word that agree on the listed bits get the same response from every state, and keep the core waiting alike. Two
choices of the model enter the last clause: that PARSE.LAX of fewer than 26 bytes draws the same open value for both
requests, since Config.laxShortFill is applied to the draw's number and CIN only (DESIGN CHOICE, log entry 3), and which
requests keep the core waiting (log entry 6). -/
def Obligations.OperandBitsAreTheListedOnes : Prop :=
  (∀ q : Request,
      (q.cmd = 0x01#8 → decode q = .ok (.cenc (BitVec.ofNat 5 q.a.toNat)))
        ∧ (q.cmd = 0x02#8 → decode q = .ok (.cdec (BitVec.ofNat 8 q.a.toNat)))
        ∧ (q.cmd = 0x03#8 → decode q = .ok (.pack (BitVec.ofNat 64 q.a.toNat) (BitVec.ofNat 80 q.b.toNat)))
        ∧ (q.cmd = 0x04#8 → decode q = .ok (.fmt q.a)) ∧ (q.cmd = 0x05#8 → decode q = .ok (.parse q.cin))
        ∧ (q.cmd = 0x15#8 → decode q = .ok (.parseLax q.cin)) ∧ (q.cmd = 0x06#8 → decode q = .ok (.xts q.a))
        ∧ (q.cmd = 0x07#8 → decode q = .ok (.cmp q.a q.b)))
    ∧ (∀ (ms : BitVec 64) (ent : BitVec 80) (s : State),
        exec (.pack ms ent) s = exec (.pack (BitVec.ofNat 64 (ms.toNat % 2 ^ 48)) ent) s)
    ∧ ∀ (p q : Request) (s : State), p.cmd = q.cmd → ReadsSame p q →
      execute p s = execute q s ∧ (p.ended = q.ended → awaitsStream p = awaitsStream q)

/-- Decoding the encoding of any instruction, with any operands, gives it back; the encoding is a well-formed request and
keeps no core waiting. -/
def Obligations.DecodeOfEncodeIsIdentity : Prop :=
  ∀ i : Instr, decode (encode i) = .ok i ∧ (encode i).wellFormed = true ∧ awaitsStream (encode i) = false

/-- The other direction: encoding what a request decodes to gives its command word and every operand bit its command
reads. -/
def Obligations.EncodeOfDecodeKeepsWhatIsRead : Prop :=
  ∀ (q : Request) (i : Instr), decode q = .ok i → (encode i).cmd = q.cmd ∧ ReadsSame q (encode i)

/-- Command words written out bit by bit from R40 and R41, and words with a reserved OP, with L = 1 outside parsing, and
with each RSV bit set (95_test_vectors.md L2-ILL). -/
def Obligations.WrittenOutWordsDecode : Prop :=
  decodeTableWord 8 0b00000001 = some (.cenc 0#5) ∧ decodeTableWord 8 0b00000011 = some (.pack 0#64 0#80)
    ∧ decodeTableWord 8 0b00000100 = some (.fmt 0#128) ∧ decodeTableWord 8 0b00010101 = some (.parseLax [])
    ∧ decodeTableWord 8 0b00000000 = none ∧ decodeTableWord 8 0b00001000 = none ∧ decodeTableWord 8 0b00010001 = none
    ∧ decodeTableWord 8 0b00100101 = none ∧ decodeTableWord 8 0b01000101 = none ∧ decodeTableWord 8 0b10000101 = none

/-- A step runs the decoded instruction: when a request is outstanding, the host neither asserts reset nor issues another,
and CIN is ended if the command reads it, step is exec of the instruction, the core having become idle and the host's
await being over. The idle-again bookkeeping is the model's (DESIGN CHOICE, log entries 1 and 4). That a command which does
not read CIN is answered although its CIN is not ended is the model's deduction (DEDUCED, log entry 6). -/
def Obligations.StepRunsTheDecodedCommand : Prop :=
  ∀ (s : State) (q : Request) (i : Instr), s.outstanding = some q → (s.inbox = [] ∨ ∃ rest, s.inbox = .await :: rest) →
    decode q = .ok i → (readsStream i = true → q.ended = true) →
    step s = exec i { s with outstanding := none, inbox := s.inbox.tail }

/-- From R77: a command word that is not one of the eight is answered with IllegalCommand, ST = 0x03, before any operand is
read: neither A nor B nor CIN changes the outcome, and R and COUT keep their values. That the end of CIN does not matter
either is the model's deduction (DEDUCED, log entry 6); the form of the step (no request outstanding any more, the host's
await over) is the model's choice (DESIGN CHOICE, log entries 1 and 4). -/
def Obligations.IllegalCommandIsAnswered : Prop :=
  ∀ (s : State) (q : Request), s.outstanding = some q → (s.inbox = [] ∨ ∃ rest, s.inbox = .await :: rest) →
    q.cmd ∉ commandWords →
    step s = .next { s with st := 0x03#8, coutLen := 0#5, outstanding := none, inbox := s.inbox.tail }

/-- Every instruction completes from every state and with all operands: exec answers a next state; it leaves the request
in progress and the host's actions alone, and makes a draw exactly for PARSE.LAX of fewer than 26 bytes (log entry 3). -/
def Obligations.EveryCommandCompletes : Prop :=
  ∀ (i : Instr) (s : State), ∃ t, exec i s = .next t ∧ t.outstanding = s.outstanding ∧ t.inbox = s.inbox
    ∧ ((∃ cin, i = .parseLax cin ∧ cin.length < 26) → t.draws = s.draws + 1)
    ∧ ((¬ ∃ cin, i = .parseLax cin ∧ cin.length < 26) → t.draws = s.draws)

/-! ### The tables -/

/-- R54: entry i of ALPHABET is the code of the i-th character of the string. -/
def Obligations.AlphabetIsTheCrockfordString : Prop :=
  ∀ sym : Sym, (encodeSymbol sym).toNat = charCode sym.toNat

/-- R55: DECODE is the table of ranges, an invalid byte has valid = 0 and sym = 0, 62 bytes are valid and 194 are not. -/
def Obligations.DecodeTableIsTheRangeTable : Prop :=
  (∀ c : Byte, (decodeChar c).valid = hasSymbol c ∧ (decodeChar c).sym.toNat = symbolValue c)
    ∧ ((List.range 256).filter fun c => (decodeChar (BitVec.ofNat 8 c)).valid).length = 62
    ∧ ((List.range 256).filter fun c => !(decodeChar (BitVec.ofNat 8 c)).valid).length = 194

/-- The table laws (R56, which the spec marks as derived from R54 and R55). -/
def Obligations.TablesAreInverse : Prop :=
  (∀ sym : Sym, decodeChar (encodeSymbol sym) = { valid := true, sym := sym })
    ∧ ∀ c : Byte, (decodeChar c).valid = true → (encodeSymbol (decodeChar c).sym).toNat = canonicalChar c.toNat

/-! ### Symbols -/

/-- R57: CENC reads A[4:0] and writes the character's code to R, ST = 0x00, COUT_LEN = 0, nothing else. -/
def Obligations.CencWritesTheCharacter : Prop :=
  (∀ q : Request, q.cmd = 0x01#8 → decode q = .ok (.cenc (BitVec.ofNat 5 q.a.toNat)))
    ∧ ∀ (sym : Sym) (s : State),
      exec (.cenc sym) s = .next { s with r := BitVec.ofNat 128 (charCode sym.toNat), st := 0x00#8, coutLen := 0#5 }

/-- R58: CDEC reads A[7:0] and writes the symbol to R (0 for a byte with none), ST = 0x04 exactly for a byte with none,
COUT_LEN = 0, nothing else. -/
def Obligations.CdecWritesTheSymbol : Prop :=
  (∀ q : Request, q.cmd = 0x02#8 → decode q = .ok (.cdec (BitVec.ofNat 8 q.a.toNat)))
    ∧ ∀ (c : Byte) (s : State),
      exec (.cdec c) s = .next { s with r := BitVec.ofNat 128 (symbolValue c),
                                        st := if hasSymbol c then 0x00#8 else 0x04#8, coutLen := 0#5 }

/-! ### Binary layout -/

/-- R49: PACK reads A[63:0] and B[79:0] and writes {A[47:0], B[79:0]} to R, the timestamp's higher bits silently lost;
ST = 0x00, COUT_LEN = 0, nothing else. -/
def Obligations.PackPlacesTimestampAndEntropy : Prop :=
  (∀ q : Request, q.cmd = 0x03#8 → decode q = .ok (.pack (BitVec.ofNat 64 q.a.toNat) (BitVec.ofNat 80 q.b.toNat)))
    ∧ ∀ (ms : BitVec 64) (ent : BitVec 80) (s : State),
      exec (.pack ms ent) s = .next { s with r := BitVec.ofNat 128 (ms.toNat % 2 ^ 48 * 2 ^ 80 + ent.toNat),
                                             st := 0x00#8, coutLen := 0#5 }

/-- R50: XTS reads A and writes A[127:80], zero-extended, to R; ST = 0x00, COUT_LEN = 0, nothing else. -/
def Obligations.XtsReadsTheTimestamp : Prop :=
  (∀ q : Request, q.cmd = 0x06#8 → decode q = .ok (.xts q.a))
    ∧ ∀ (v : Word) (s : State),
      exec (.xts v) s = .next { s with r := BitVec.ofNat 128 (v.toNat / 2 ^ 80), st := 0x00#8, coutLen := 0#5 }

/-- The timestamp round trip (R51, which the spec marks as derived from R49 and R50). -/
def Obligations.TimestampRoundTrip : Prop :=
  ∀ (ms : BitVec 64) (ent : BitVec 80) (s : State), ∃ t u, exec (.pack ms ent) s = .next t ∧ exec (.xts t.r) t = .next u
    ∧ u.r.toNat = ms.toNat % 2 ^ 48 ∧ (ms.toNat < 2 ^ 48 → u.r.toNat = ms.toNat)

/-- R52: CMP reads A and B; the earliest differing byte, unsigned, decides R (all ones, or 1), and R is 0 when all 16 bytes
agree, which is the comparison of A and B as 128-bit unsigned integers; ST = 0x00, COUT_LEN = 0, nothing else. -/
def Obligations.CmpEarliestDifferingByteDecides : Prop :=
  (∀ q : Request, q.cmd = 0x07#8 → decode q = .ok (.cmp q.a q.b))
    ∧ ∀ (a b : Word) (s : State), ∃ r, exec (.cmp a b) s = .next { s with r := r, st := 0x00#8, coutLen := 0#5 }
      ∧ (a.toNat < b.toNat → r = 0xFFFFFFFFFFFFFFFFFFFFFFFFFFFFFFFF#128) ∧ (a.toNat = b.toNat → r = 0#128)
      ∧ (b.toNat < a.toNat → r = 1#128) ∧ ((∀ i < 16, byteOf a.toNat i = byteOf b.toNat i) → r = 0#128)
      ∧ ∀ i < 16, (∀ j < i, byteOf a.toNat j = byteOf b.toNat j) →
        (byteOf a.toNat i < byteOf b.toNat i → r = 0xFFFFFFFFFFFFFFFFFFFFFFFFFFFFFFFF#128)
          ∧ (byteOf b.toNat i < byteOf a.toNat i → r = 1#128)

/-- The byte-serial comparison is that of the values V, and that of (timestamp, entropy) in this order (R31, which the spec
marks as derived from R28 and R29). -/
def Obligations.ByteOrderIsValueOrder : Prop :=
  ∀ a b : Word, (compareBytes (idBytes a) (idBytes b) = 0b11#2 ↔ a.toNat < b.toNat)
    ∧ (compareBytes (idBytes a) (idBytes b) = 0b00#2 ↔ a = b)
    ∧ (compareBytes (idBytes a) (idBytes b) = 0b01#2 ↔ b.toNat < a.toNat)
    ∧ (a.toNat < b.toNat ↔ (timestampOf a).toNat < (timestampOf b).toNat
        ∨ ((timestampOf a).toNat = (timestampOf b).toNat ∧ (entropyOf a).toNat < (entropyOf b).toNat))

/-- The comparison laws (R53, which the spec marks as derived from R52 and R29), R read as a signed number. -/
def Obligations.ComparisonLaws : Prop :=
  ∀ (a b : Word) (s : State), ∃ t u w, exec (.cmp a b) s = .next t ∧ exec (.cmp b a) s = .next u
    ∧ exec (.cmp a a) s = .next w ∧ w.r.toInt = 0 ∧ t.r.toInt = - u.r.toInt ∧ (t.r.toInt = 0 ↔ a = b)
    ∧ (a.toNat / 2 ^ 80 < b.toNat / 2 ^ 80 → t.r.toInt = -1)

/-- R28: byte i of an identifier is V[127-8i : 120-8i], and V is the sum of the bytes times the powers of 256, byte 0 the
most significant. -/
def Obligations.IdentifierIsBigEndian : Prop :=
  ∀ v : Word, (∀ i : Fin 16, (idByte v i).toNat = byteOf v.toNat i.val)
    ∧ (idBytes v).length = 16 ∧ v.toNat = (idBytes v).foldl (fun n b => 256 * n + b.toNat) 0

/-- R29: V = {ts, ent}; bytes 0 to 5 are the timestamp, big-endian, and bytes 6 to 15 the entropy (R30: in its own byte
order, e[0] first). -/
def Obligations.IdentifierFieldsAreItsBytes : Prop :=
  (∀ v : Word, packIdentifier (timestampOf v) (entropyOf v) = v)
    ∧ ∀ (ts : BitVec 48) (ent : BitVec 80),
      timestampOf (packIdentifier ts ent) = ts ∧ entropyOf (packIdentifier ts ent) = ent
        ∧ (∀ i : Fin 16, i.val < 6 →
            (idByte (packIdentifier ts ent) i).toNat = ts.toNat / 256 ^ (5 - i.val) % 256)
        ∧ ∀ i : Fin 16, 6 ≤ i.val →
            (idByte (packIdentifier ts ent) i).toNat = ent.toNat / 256 ^ (15 - i.val) % 256

/-! ### Formatting -/

/-- R62: FMT reads A and writes the 26 characters of its five-bit groups, the first group most significant, to COUT;
COUT_LEN = 26, ST = 0x00, R and everything else unchanged. -/
def Obligations.FmtWritesTheTwentySixCharacters : Prop :=
  (∀ q : Request, q.cmd = 0x04#8 → decode q = .ok (.fmt q.a))
    ∧ ∀ (v : Word) (s : State),
      exec (.fmt v) s = .next { s with cout := Vector.ofFn fun k : Fin 26 =>
                                         BitVec.ofNat 8 (charCode (v.toNat / 32 ^ (25 - k.val) % 32)),
                                       coutLen := 26#5, st := 0x00#8 }

/-- R59 and R60: the padding bits are 0 for every V; groups 0 to 9 are the timestamp's bits and groups 10 to 25 the
entropy's, so group 0 is at most 7. -/
def Obligations.GroupsSplitTimestampAndEntropy : Prop :=
  ∀ v : Word, (paddedView v).toNat = v.toNat ∧ (group (paddedView v) 0).toNat ≤ 7
    ∧ (∀ k : Fin 26, (group (paddedView v) k).toNat = v.toNat / 2 ^ (125 - 5 * k.val) % 2 ^ 5)
    ∧ (∀ k : Fin 26, k.val < 10 →
        (group (paddedView v) k).toNat = (timestampOf v).toNat / 2 ^ (45 - 5 * k.val) % 2 ^ 5)
    ∧ ∀ k : Fin 26, 10 ≤ k.val →
        (group (paddedView v) k).toNat = (entropyOf v).toNat / 2 ^ (125 - 5 * k.val) % 2 ^ 5

/-- The slicing per character from the bytes (R61's table, which the spec marks as derived from R60 and R28). -/
def Obligations.GroupsFromBytesTable : Prop :=
  ∀ v : Word, (List.finRange 26).map (fun k => (group (paddedView v) k).toNat)
    = groupsFromBytes fun i => byteOf v.toNat i

/-- Alphabet closure (R63, which the spec marks as derived from R62 and R54). -/
def Obligations.FmtStaysInTheAlphabet : Prop :=
  ∀ (v : Word) (s t : State), exec (.fmt v) s = .next t →
    (∀ c ∈ t.cout.toList, ∃ sym : Sym, c = alphabet[sym.toNat]'sym.isLt)
      ∧ 0x30 ≤ t.cout[0].toNat ∧ t.cout[0].toNat ≤ 0x37

/-- FMT is injective, and its outputs compare byte by byte, unsigned, from position 0, as the values do (R64, which the
spec marks as derived from R60 and R54). -/
def Obligations.FmtKeepsTheOrder : Prop :=
  ∀ (v w : Word) (s s' t u : State), exec (.fmt v) s = .next t → exec (.fmt w) s' = .next u →
    (t.cout = u.cout ↔ v = w)
      ∧ (t.cout.toList.map BitVec.toNat < u.cout.toList.map BitVec.toNat ↔ v.toNat < w.toNat)

/-! ### Parsing -/

/-- R66: the parser's 130-bit value has the 26 symbols as its groups, d[0] first, and the identifier is its low 128 bits:
the two high bits of d[0] are discarded. -/
def Obligations.ReassemblyIsTheInverseOfSlicing : Prop :=
  ∀ (ds : List Sym) (h : ds.length = 26),
    (∀ k : Fin 26, group (concatSymbols ds) k = ds[k.val]'(by omega))
      ∧ (reassemble ds).toNat = (concatSymbols ds).toNat % 2 ^ 128

/-- The reassembly per identifier byte (R67's table, which the spec marks as derived from R66 and R28). -/
def Obligations.BytesFromSymbolsTable : Prop :=
  ∀ ds : List Sym, ds.length = 26 →
    (List.range 16).map (byteOf (reassemble ds).toNat) = bytesFromSymbols fun k => (ds.getD k 0#5).toNat

/-- R69, with the errors of R78 and R79: PARSE reads CIN. A length other than 26 is WrongLength, whatever the bytes. With
26 bytes, one with no symbol is InvalidCharacter. Otherwise R is the base-32 value, its bits above 127 discarded, and ST
reports TOPBITS. COUT_LEN = 0 each time, nothing else changes. -/
def Obligations.ParseIsStrict : Prop :=
  (∀ q : Request, q.cmd = 0x05#8 → decode q = .ok (.parse q.cin))
    ∧ ∀ (cin : List Byte) (s : State),
      (cin.length ≠ 26 → exec (.parse cin) s = .next { s with st := 0x09#8, coutLen := 0#5 })
        ∧ (cin.length = 26 → (∃ c ∈ cin, hasSymbol c = false) →
            exec (.parse cin) s = .next { s with st := 0x05#8, coutLen := 0#5 })
        ∧ (cin.length = 26 → (∀ c ∈ cin, hasSymbol c = true) →
            exec (.parse cin) s = .next { s with r := BitVec.ofNat 128 (base32Value cin),
                                                 st := if firstIsTop cin then 0x10#8 else 0x00#8, coutLen := 0#5 })

/-- R70 and R71: PARSE.LAX reads CIN and rejects nothing. ST reports TOPBITS, WRONG_LENGTH and INVALID_CHAR of the first 26
bytes. With 26 bytes or more, R is the base-32 value of the first 26 (an invalid byte counts 0), its bits above 127
discarded. With fewer, R is some value, which is left open (`draws`, the model's own name of the draw, may change; log entry
3). COUT_LEN = 0, nothing else changes. -/
def Obligations.ParseLaxReportsAndRejectsNothing : Prop :=
  (∀ q : Request, q.cmd = 0x15#8 → decode q = .ok (.parseLax q.cin))
    ∧ ∀ (cin : List Byte) (s : State), ∃ st : BitVec 8,
      st.toNat = (if firstIsTop cin then 16 else 0) + (if cin.length = 26 then 0 else 8)
          + (if ∀ c ∈ cin.take 26, hasSymbol c = true then 0 else 4)
        ∧ (26 ≤ cin.length →
            exec (.parseLax cin) s = .next { s with r := BitVec.ofNat 128 (base32Value (cin.take 26)), st := st,
                                                    coutLen := 0#5 })
        ∧ (cin.length < 26 → ∃ (fill : Word) (draw : Nat),
            exec (.parseLax cin) s = .next { s with r := fill, st := st, coutLen := 0#5, draws := draw })

/-- Where strict PARSE accepts, PARSE.LAX does exactly the same (from R69 and R70). -/
def Obligations.LaxAgreesWhereStrictAccepts : Prop :=
  ∀ (cin : List Byte) (s t : State), exec (.parse cin) s = .next t → stErr t.st = false →
    exec (.parseLax cin) s = .next t

/-- The round trip (R72, which the spec marks as derived): PARSE, and PARSE.LAX, of the 26 bytes FMT writes give the
identifier back, with ST = 0x00. -/
def Obligations.ParseOfFormatIsIdentity : Prop :=
  ∀ (v : Word) (s t s' : State), exec (.fmt v) s = .next t →
    exec (.parse t.cout.toList) s' = .next { s' with r := v, st := 0x00#8, coutLen := 0#5 }
      ∧ exec (.parseLax t.cout.toList) s' = .next { s' with r := v, st := 0x00#8, coutLen := 0#5 }

/-- Canonical form (R73, which the spec marks as derived): FMT of the identifier an accepted PARSE gave writes the canonical
spelling of CIN, but for position 0 when TOPBITS is 1, which is then the character of d[0] & 7. -/
def Obligations.FormatOfParseIsCanonical : Prop :=
  ∀ (cin : List Byte) (s t u : State), exec (.parse cin) s = .next t → stErr t.st = false →
    exec (.fmt t.r) t = .next u →
    (stTopBits t.st = false → u.cout.toList.map BitVec.toNat = cin.map fun c => canonicalChar c.toNat)
      ∧ (stTopBits t.st = true → u.cout.toList.map BitVec.toNat
          = charCode (symbolValue (cin.headD 0#8) % 8) :: cin.tail.map fun c => canonicalChar c.toNat)

/-! ### Errors and status -/

/-- R75 and R76: the error response writes the error's code (ERR and exactly one cause bit) to ST and 0 to COUT_LEN and
leaves the rest. -/
def Obligations.ErrorResponseWritesCodeOnly : Prop :=
  ∀ (e : CodecError) (s : State), ∃ code : BitVec 8,
    raiseError e s = { s with st := code, coutLen := 0#5 }
      ∧ (e = .illegalCommand → code = 0x03#8) ∧ (e = .wrongLength → code = 0x09#8)
      ∧ (e = .invalidCharacter → code = 0x05#8)
      ∧ stErr code = true
      ∧ [stIllegalCmd code, stInvalidChar code, stWrongLength code].count true = 1 ∧ stTopBits code = false

/-- R80: what is reported and never raised. An invalid byte in CDEC; an invalid byte, a wrong length, a first symbol of at
least 8 in PARSE.LAX; such a first symbol in an otherwise good PARSE; a timestamp of 2^48 or more in PACK: the request is
not rejected (ERR = 0), the bit of R80's table is set (none for PACK), and R is written. -/
def Obligations.ReportedConditionsAreNotErrors : Prop :=
  ∀ s : State,
    (∀ c, hasSymbol c = false → exec (.cdec c) s = .next { s with r := 0#128, st := 0x04#8, coutLen := 0#5 })
      ∧ (∀ cin, ∃ t, exec (.parseLax cin) s = .next t ∧ stErr t.st = false
          ∧ (stInvalidChar t.st = true ↔ ∃ c ∈ cin.take 26, hasSymbol c = false)
          ∧ (stWrongLength t.st = true ↔ cin.length ≠ 26) ∧ (stTopBits t.st = true ↔ firstIsTop cin = true)
          ∧ (26 ≤ cin.length → t.r = BitVec.ofNat 128 (base32Value (cin.take 26))))
      ∧ (∀ cin, cin.length = 26 → (∀ c ∈ cin, hasSymbol c = true) → firstIsTop cin = true →
          ∃ r, exec (.parse cin) s = .next { s with r := r, st := 0x10#8, coutLen := 0#5 }
            ∧ r.toNat = base32Value cin % 2 ^ 128)
      ∧ ∀ (ms : BitVec 64) (ent : BitVec 80), 2 ^ 48 ≤ ms.toNat →
          ∃ r, exec (.pack ms ent) s = .next { s with r := r, st := 0x00#8, coutLen := 0#5 }
            ∧ r.toNat = ms.toNat % 2 ^ 48 * 2 ^ 80 + ent.toNat

/-- R76 and R81: the three errors, their causes and codes. Only an illegal word and PARSE raise one; a request raises at
most one, IllegalCommand before WrongLength before InvalidCharacter; PARSE.LAX raises none and can report its three
conditions at once. -/
def Obligations.AtMostOneErrorInOrder : Prop :=
  (∀ (q : Request) (s t : State), execute q s = .next t →
    (stErr t.st = true ↔ q.cmd ∉ commandWords
        ∨ (q.cmd = 0x05#8 ∧ (q.cin.length ≠ 26 ∨ ∃ c ∈ q.cin, hasSymbol c = false)))
      ∧ (q.cmd ∉ commandWords → t.st = 0x03#8)
      ∧ (q.cmd = 0x05#8 → q.cin.length ≠ 26 → t.st = 0x09#8)
      ∧ (q.cmd = 0x05#8 → q.cin.length = 26 → (∃ c ∈ q.cin, hasSymbol c = false) → t.st = 0x05#8))
    ∧ ∃ cin, ∀ s : State, ∃ t, exec (.parseLax cin) s = .next t ∧ stErr t.st = false ∧ stTopBits t.st = true
        ∧ stWrongLength t.st = true ∧ stInvalidChar t.st = true

/-! ### The registers -/

/-- R is left unchanged by FMT, by a rejected PARSE and by an illegal command, and by nothing else: any other request
writes it in full, so that what it held before does not show (from R19). For PARSE.LAX of fewer than 26 bytes the value is
open (R71), and that it is the same whatever R held is the model's choice: Config.laxShortFill is applied to the draw's
number and CIN and not to R (DESIGN CHOICE, log entry 3). -/
def Obligations.ResultRegisterIsWrittenInFull : Prop :=
  ∀ (q : Request) (s t : State), execute q s = .next t →
    ((q.cmd = 0x04#8 ∨ stErr t.st = true) → t.r = s.r)
      ∧ (¬ (q.cmd = 0x04#8 ∨ stErr t.st = true) → ∀ old : Word, execute q { s with r := old } = .next t)

/-- Every request writes ST whole: the status after it does not depend on the state before it, and bits 7:5 are 0 (from R20
and R21). The second clause is the model's choice and not those rules': accepting a request is a step of its own that makes
the request outstanding and changes no register (DESIGN CHOICE, log entries 1 and 4). -/
def Obligations.StatusIsNeverSticky : Prop :=
  (∀ (q : Request) (s s' t t' : State), execute q s = .next t → execute q s' = .next t' →
      t.st = t'.st ∧ t.st ∈ possibleStatus ∧ stReserved t.st = 0b000#3)
    ∧ ∀ (s t : State) (q : Request), s.outstanding = none → s.inbox.head? = some (.issue q) → step s = .next t →
      t.outstanding = some q ∧ t.response = s.response

/-- R22: FMT writes all of COUT and sets COUT_LEN to 26; every other request sets COUT_LEN to 0 and leaves COUT; what the
host may read is then all 26 characters, or nothing; no step makes COUT_LEN anything but 0 or 26. -/
def Obligations.TextBufferIsWrittenByFmtOnly : Prop :=
  (∀ (q : Request) (s t : State), execute q s = .next t →
      (q.cmd = 0x04#8 → t.cout = formatText q.a ∧ t.coutLen = 26#5 ∧ t.visibleText = (formatText q.a).toList)
        ∧ (q.cmd ≠ 0x04#8 → t.cout = s.cout ∧ t.coutLen = 0#5 ∧ t.visibleText = []))
    ∧ ∀ s t : State, s.coutLen = 0#5 ∨ s.coutLen = 26#5 → step s = .next t → t.coutLen = 0#5 ∨ t.coutLen = 26#5

/-- No hidden state (R16): the registers after a request depend on the request and on the registers it leaves unchanged
only. Two states with equal R and COUT, whatever else differs, give equal responses, but for R where PARSE.LAX of fewer than
26 bytes draws the open value of R71 (log entry 3). -/
def Obligations.NoHiddenState : Prop :=
  ∀ (q : Request) (s s' t t' : State), s.r = s'.r → s.cout = s'.cout → execute q s = .next t → execute q s' = .next t' →
    t.st = t'.st ∧ t.cout = t'.cout ∧ t.coutLen = t'.coutLen
      ∧ (¬ (q.cmd = 0x15#8 ∧ q.cin.length < 26) → t.r = t'.r)

/-! ### Reset, the host, whole runs -/

/-- The registers after reset (R24). That no request is outstanding is from R88 ("the core is idle"), in the model's form of
an idle core that the host has not yet asked anything (DESIGN CHOICE, log entry 2). -/
def Obligations.ResetValues : Prop :=
  State.reset.r = 0#128 ∧ State.reset.st = 0x00#8 ∧ State.reset.cout.toList = List.replicate 26 0x00#8
    ∧ State.reset.coutLen = 0#5 ∧ State.reset.outstanding = none

/-- From R88: reset, asserted at any time, sets the four registers to the reset values and abandons a request in progress;
the core is then idle and accepts the next request at once. The model's choices in it: reset leaves the host's later actions
alone (`t.inbox = rest`; DESIGN CHOICE, log entry 7); accepting is a step of its own that changes no register (DESIGN CHOICE,
log entries 1 and 4); assertion and release are one action (DESIGN CHOICE, log entry 13). -/
def Obligations.ResetAbandonsTheRequest : Prop :=
  ∀ (s : State) (rest : List HostAction), s.inbox = .reset :: rest →
    ∃ t, step s = .next t ∧ t.response = State.reset.response ∧ t.outstanding = none ∧ t.inbox = rest
      ∧ ∀ (q : Request) (more : List HostAction), rest = .issue q :: more →
        ∃ u, step t = .next u ∧ u.outstanding = some q ∧ u.response = State.reset.response

/-- R87: an idle core keeps its state until the host acts, however long that takes. -/
def Obligations.IdleCoreKeepsItsRegisters : Prop :=
  ∀ (s : State) (n : Nat), s.outstanding = none → s.inbox = [] → core.run n s = .next s

/-- From R92 and R74: a request issued while another is outstanding gets no step, and nothing else goes without one; no step
is a fault. The model's choices in it: the name of the refusal (log entry 5), the step of a core that waits for a CIN that is
not ended (log entry 6), and the step of a host that awaits with no request outstanding (log entry 11), each DESIGN
CHOICE. -/
def Obligations.OnlyASecondRequestIsRefused : Prop :=
  ∀ s : State, (step s = .refused .requestWhileOutstanding
        ↔ s.outstanding.isSome = true ∧ ∃ q rest, s.inbox = .issue q :: rest)
    ∧ (¬ (s.outstanding.isSome = true ∧ ∃ q rest, s.inbox = .issue q :: rest) → ∃ t, step s = .next t)

/-- From R93: a PARSE or PARSE.LAX whose CIN never ends keeps the core waiting for ever: after any number of steps no response
has come. That the wait is a step to the very same state, nothing changed and no fault, is the model's choice (DESIGN CHOICE,
log entry 6). -/
def Obligations.UnterminatedStreamWaitsForEver : Prop :=
  ∀ (s : State) (q : Request) (n : Nat), s.outstanding = some q → q.cmd = 0x05#8 ∨ q.cmd = 0x15#8 → q.ended = false →
    (s.inbox = [] ∨ ∃ rest, s.inbox = .await :: rest) → core.run n s = .next s

/-- The invariant of the response registers holds at reset. -/
def Obligations.InvariantHoldsAtReset : Prop := State.reset.Inv

/-- Every step keeps the invariant of the response registers: ST holds one of the eleven values the rules give; COUT_LEN is
0, or 26 with ST = 0x00 and a text in COUT; COUT holds reset's bytes or a text. -/
def Obligations.EveryStepKeepsTheInvariant : Prop :=
  ∀ s t : State, s.Inv → step s = .next t → t.Inv

/-- A host that keeps its duties (R90: one request at a time, and the CIN of every PARSE and PARSE.LAX ended) is never refused
and keeps them after the step, and its outstanding request is answered by that very step unless it asserts reset. That the
other commands are served although their CIN is not ended is the model's deduction (DEDUCED, log entry 6); that the answer
comes by that very step is the model's form of a step (DESIGN CHOICE, log entries 1 and 4). -/
def Obligations.DutifulHostIsAlwaysServed : Prop :=
  ∀ s : State, s.dutiful = true → ∃ t, step s = .next t ∧ t.dutiful = true
    ∧ (s.inbox.head? ≠ some .reset → ∀ q, s.outstanding = some q →
        t.outstanding = none ∧ execute q { s with outstanding := none, inbox := s.inbox.tail } = .next t)

/-- Requests take effect in the order the host issues them, one at a time (from R36 and R96): while the host issues and
awaits a sequence of requests, from an idle core, the state after the n-th response is that of answering the first n
requests one after the other, and shows nothing of a later one; the core is then idle. Two steps a request and the host's
script are the model's form (DESIGN CHOICE, log entries 1 and 4). That a request whose command does not read CIN may stand in
the sequence with its CIN not ended is the model's deduction (DEDUCED, log entry 6). -/
def Obligations.RequestsTakeEffectInIssueOrder : Prop :=
  ∀ (qs : List Request) (s : State), s.outstanding = none → s.inbox = [] → (∀ q ∈ qs, awaitsStream q = false) →
    ∀ n ≤ qs.length, ∃ t, answerAll (qs.take n) s = .next t ∧ t.outstanding = none ∧ t.inbox = []
      ∧ core.run (2 * n) { s with inbox := script qs } = .next { t with inbox := script (qs.drop n) }
end

