-- ==== Sys2Proof/Laws/Decode.lean ====
section
/-! SUPPORT. What decoding can answer: the command word of the instruction it gives, and the one way it fails. -/

namespace Sys2Proof

/-- An instruction that a request decodes to carries the request's command word. -/
theorem commandWord_of_decode (q : Request) (i : Instr) (h : decode q = .ok i) : commandWord i = q.cmd := by
  unfold decode at h
  split at h <;> cases h <;> simp_all [commandWord]

/-- A request decodes to an instruction, or is illegal. -/
theorem decode_cases (q : Request) : (∃ i, decode q = .ok i) ∨ decode q = .error .illegalCommand := by
  match h : decode q with
  | .ok i => exact .inl ⟨i, rfl⟩
  | .error .illegalCommand => exact .inr rfl

/-- The stream an instruction parses is the request's CIN. -/
theorem parse_of_decode (q : Request) (cin : List Byte) (h : decode q = .ok (.parse cin)) : cin = q.cin := by
  have hc := commandWord_of_decode q _ h
  simp only [decode, ← hc, commandWord] at h
  cases h; rfl

theorem parseLax_of_decode (q : Request) (cin : List Byte) (h : decode q = .ok (.parseLax cin)) : cin = q.cin := by
  have hc := commandWord_of_decode q _ h
  simp only [decode, ← hc, commandWord] at h
  cases h; rfl

/-- The identifier FMT formats is the request's A. -/
theorem fmt_of_decode (q : Request) (v : Word) (h : decode q = .ok (.fmt v)) : v = q.a := by
  have hc := commandWord_of_decode q _ h
  simp only [decode, ← hc, commandWord] at h
  cases h; rfl

end Sys2Proof
end

