-- ==== Sys2Proof/Laws/Flags.lean ====
section
/-! SUPPORT. ST's bits read back as they were written (spec/10_state.md R20), and the error codes are those bits
(spec/60_exceptions.md R76). -/

namespace Sys2Proof.Machine

@[simp] theorem stErr_statusWord (b : StatusBits) : stErr (statusWord b) = b.err := by
  obtain ⟨e, i, c, l, t⟩ := b; revert e i c l t; decide
@[simp] theorem stIllegalCmd_statusWord (b : StatusBits) : stIllegalCmd (statusWord b) = b.illegalCmd := by
  obtain ⟨e, i, c, l, t⟩ := b; revert e i c l t; decide
@[simp] theorem stInvalidChar_statusWord (b : StatusBits) : stInvalidChar (statusWord b) = b.invalidChar := by
  obtain ⟨e, i, c, l, t⟩ := b; revert e i c l t; decide
@[simp] theorem stWrongLength_statusWord (b : StatusBits) : stWrongLength (statusWord b) = b.wrongLength := by
  obtain ⟨e, i, c, l, t⟩ := b; revert e i c l t; decide
@[simp] theorem stTopBits_statusWord (b : StatusBits) : stTopBits (statusWord b) = b.topBits := by
  obtain ⟨e, i, c, l, t⟩ := b; revert e i c l t; decide
@[simp] theorem stReserved_statusWord (b : StatusBits) : stReserved (statusWord b) = 0b000#3 := by
  obtain ⟨e, i, c, l, t⟩ := b; revert e i c l t; decide

/-- The codes of R76 are ERR with one cause bit. -/
theorem errorCode_eq_statusWord (e : CodecError) :
    errorCode e = statusWord
      { err := true, illegalCmd := e == .illegalCommand, wrongLength := e == .wrongLength,
        invalidChar := e == .invalidCharacter } := by
  cases e <;> decide

end Sys2Proof.Machine
end

