-- ==== Sys2Proof/Laws/Operands.lean ====
section
/-! SUPPORT. What the operand functions compute, as numbers: slices of an identifier are quotients and remainders, and
strings of digits in a base are read back digit by digit. -/

namespace Sys2Proof.Machine

/-! ### Digits in a base, most significant first -/

/-- Reading the upper `n` of `m` digits of `v` gives the upper part of `v` modulo `B ^ m`. -/
theorem foldl_digits (B m v : Nat) : ∀ n ≤ m,
    ((List.range n).map fun i => v / B ^ (m - 1 - i) % B).foldl (fun acc d => B * acc + d) 0
      = v / B ^ (m - n) % B ^ n := by
  intro n
  induction n with
  | zero => intro _; simp [Nat.mod_one]
  | succ n ih =>
    intro hn
    have e : m - n = m - (n + 1) + 1 := by omega
    have e' : m - 1 - n = m - (n + 1) := by omega
    rw [List.range_succ, List.map_append, List.map_singleton, List.foldl_append, ih (by omega)]
    simp only [e, e', pow_succ, ← Nat.div_div_eq_div_mul, List.foldl_cons, List.foldl_nil]
    rw [mul_comm (B ^ n) B, Nat.mod_mul, add_comm]

/-- The value of a string of symbols stays below 32 to its length. -/
theorem foldl_symbols_lt (ds : List Sym) : ds.foldl (fun n d => 32 * n + d.toNat) 0 < 32 ^ ds.length := by
  induction ds using List.reverseRecOn with
  | nil => simp
  | append_singleton ds d ih =>
    rw [List.foldl_append, List.foldl_cons, List.foldl_nil, List.length_append, List.length_singleton, pow_succ]
    have := d.isLt
    omega

/-- Digit `k` of a string of symbols is its symbol `k`. -/
theorem foldl_symbols_digit : ∀ (ds : List Sym) (k : Nat) (h : k < ds.length),
    ds.foldl (fun n d => 32 * n + d.toNat) 0 / 32 ^ (ds.length - 1 - k) % 32 = ds[k].toNat := by
  intro ds
  induction ds using List.reverseRecOn with
  | nil => intro k h; simp at h
  | append_singleton ds d ih =>
    intro k h
    have hd := d.isLt
    rw [List.foldl_append, List.foldl_cons, List.foldl_nil]
    simp only [List.length_append, List.length_singleton] at h ⊢
    by_cases hk : k = ds.length
    · subst hk; simp; omega
    · have hk : k < ds.length := by omega
      rw [List.getElem_append_left hk, ← ih k hk, show ds.length + 1 - 1 - k = (ds.length - 1 - k) + 1 by omega, pow_succ,
        mul_comm (32 ^ _) 32, ← Nat.div_div_eq_div_mul]
      congr 2; omega

/-! ### Slices of an identifier -/

theorem timestampOf_toNat (v : Word) : (timestampOf v).toNat = v.toNat / 2 ^ 80 := by
  have := v.isLt
  simp only [timestampOf, BitVec.extractLsb'_toNat, Nat.shiftRight_eq_div_pow]
  omega

theorem entropyOf_toNat (v : Word) : (entropyOf v).toNat = v.toNat % 2 ^ 80 := by
  simp [entropyOf]

theorem packIdentifier_toNat (ts : BitVec 48) (ent : BitVec 80) :
    (packIdentifier ts ent).toNat = ts.toNat * 2 ^ 80 + ent.toNat := by
  rw [packIdentifier, BitVec.toNat_append, ← Nat.shiftLeft_add_eq_or_of_lt ent.isLt, Nat.shiftLeft_eq]

theorem idBytes_length (v : Word) : (idBytes v).length = 16 := by simp [idBytes]

theorem paddedView_toNat (v : Word) : (paddedView v).toNat = v.toNat := by
  rw [paddedView, BitVec.toNat_append]; simp

/-- A group of any 130-bit value, the padding bits not assumed zero. -/
theorem group_toNat (w : BitVec 130) (k : Fin 26) : (group w k).toNat = w.toNat / 32 ^ (25 - k.val) % 32 := by
  have e : (32 : ℕ) ^ (25 - k.val) = 2 ^ (125 - 5 * k.val) := by
    rw [show (32 : ℕ) = 2 ^ 5 from rfl, ← pow_mul]; congr 1; omega
  simp only [group, BitVec.extractLsb'_toNat, Nat.shiftRight_eq_div_pow, e, Nat.reducePow]

@[simp] theorem formatText_getElem (v : Word) (k : Nat) (h : k < 26) :
    (formatText v)[k] = encodeSymbol (group (paddedView v) ⟨k, h⟩) := by
  simp [formatText]

/-! ### Comparison -/

/-- Comparing one more byte at the low end. -/
theorem compareBytes_snoc : ∀ (xs ys : List Byte) (x y : Byte), xs.length = ys.length →
    compareBytes (xs ++ [x]) (ys ++ [y])
      = if compareBytes xs ys = 0b00#2 then compareBytes [x] [y] else compareBytes xs ys
  | [], [], _, _, _ => by simp [compareBytes]
  | a :: xs, b :: ys, x, y, h => by
    by_cases hab : a = b
    · simpa [compareBytes, hab] using compareBytes_snoc xs ys x y (by simpa using h)
    · by_cases hl : a.ult b <;> simp [compareBytes, hab, hl]

/-! ### Reassembly -/

theorem decodedSymbols_length (cin : List Byte) : (decodedSymbols cin).length = min 26 cin.length := by
  simp [decodedSymbols, decodedEntries]

/-- Only the first 26 characters are decoded (43_parse.md R65). -/
theorem decodedEntries_take (cin : List Byte) : decodedEntries (cin.take 26) = decodedEntries cin := by
  simp [decodedEntries]

/-- Shifting in one symbol is a step of base-32 reading, within 130 bits. -/
theorem shiftIn_toNat (w : BitVec 130) (d : Sym) :
    ((w <<< 5) ||| d.setWidth 130).toNat = (32 * w.toNat + d.toNat) % 2 ^ 130 := by
  have hd := d.isLt
  have e : w.toNat * 2 ^ 5 % 2 ^ 130 = (w.toNat % 2 ^ 125) <<< 5 := by rw [Nat.shiftLeft_eq]; omega
  rw [BitVec.toNat_or, BitVec.toNat_shiftLeft, BitVec.toNat_setWidth, Nat.mod_eq_of_lt (lt_trans hd (by decide)),
    Nat.shiftLeft_eq, e, ← Nat.shiftLeft_add_eq_or_of_lt hd, Nat.shiftLeft_eq]
  omega

theorem concatSymbols_append (ds : List Sym) (d : Sym) :
    concatSymbols (ds ++ [d]) = (concatSymbols ds <<< 5) ||| d.setWidth 130 := by
  simp [concatSymbols]

/-- Up to 26 symbols, concatenating is base-32 reading. -/
theorem concatSymbols_toNat (ds : List Sym) (h : ds.length ≤ 26) :
    (concatSymbols ds).toNat = ds.foldl (fun n d => 32 * n + d.toNat) 0 := by
  have key : (concatSymbols ds).toNat = ds.foldl (fun n d => 32 * n + d.toNat) 0 % 2 ^ 130 := by
    clear h
    induction ds using List.reverseRecOn with
    | nil => rfl
    | append_singleton ds d ih =>
      rw [concatSymbols_append, shiftIn_toNat, ih, List.foldl_append, List.foldl_cons, List.foldl_nil]
      omega
  rw [key, Nat.mod_eq_of_lt]
  exact lt_of_lt_of_le (foldl_symbols_lt ds) (le_trans (Nat.pow_le_pow_right (by decide) h) (by decide))

theorem reassemble_toNat (ds : List Sym) : (reassemble ds).toNat = (concatSymbols ds).toNat % 2 ^ 128 := by
  simp [reassemble]

end Sys2Proof.Machine
end

