-- ==== Sys2Proof/Laws/PerInstr.lean ====
section
/-! SUPPORT. Per instruction, as syntax: its command word is a legal one whose three fields are those of its row in
spec/30_encoding.md R41, and its request is complete. -/

namespace Sys2Proof.Laws.EncodesLegally

/-- The command word is legal (R42), its RSV field is 0, and L is 1 for PARSE.LAX only (R40); the request's CIN is
ended. -/
def Statement (i : Instr) : Prop :=
  legalCommand (commandWord i) = true ∧ (commandWord i).extractLsb' 5 3 = 0b000#3
    ∧ ((commandWord i).getLsbD 4 = true ↔ ∃ cin, i = .parseLax cin) ∧ (encode i).ended = true

theorem cenc (sym : Sym) : Statement (.cenc sym) := by
  simp [Statement, commandWord, encode, legalCommand]
theorem cdec (c : Byte) : Statement (.cdec c) := by
  simp [Statement, commandWord, encode, legalCommand]
theorem pack (ms : BitVec 64) (ent : BitVec 80) : Statement (.pack ms ent) := by
  simp [Statement, commandWord, encode, legalCommand]
theorem fmt (v : Word) : Statement (.fmt v) := by
  simp [Statement, commandWord, encode, legalCommand]
theorem parse (cin : List Byte) : Statement (.parse cin) := by
  simp [Statement, commandWord, encode, legalCommand]
theorem parseLax (cin : List Byte) : Statement (.parseLax cin) := by
  simp [Statement, commandWord, encode, legalCommand]
theorem xts (v : Word) : Statement (.xts v) := by
  simp [Statement, commandWord, encode, legalCommand]
theorem cmp (a b : Word) : Statement (.cmp a b) := by
  simp [Statement, commandWord, encode, legalCommand]

end Sys2Proof.Laws.EncodesLegally
end

