-- ==== Sys2Proof/Laws/State.lean ====
section
/-! SUPPORT. What each operation of Machine/Ops.lean leaves in each field of State: one lemma per field per operation, so
that no proof unfolds a record update. -/

namespace Sys2Proof.Machine

@[simp] theorem respond_r (st : BitVec 8) (s : State) : (respond st s).r = s.r := rfl
@[simp] theorem respond_st (st : BitVec 8) (s : State) : (respond st s).st = st := rfl
@[simp] theorem respond_cout (st : BitVec 8) (s : State) : (respond st s).cout = s.cout := rfl
@[simp] theorem respond_coutLen (st : BitVec 8) (s : State) : (respond st s).coutLen = 0#5 := rfl
@[simp] theorem respond_outstanding (st : BitVec 8) (s : State) : (respond st s).outstanding = s.outstanding := rfl
@[simp] theorem respond_inbox (st : BitVec 8) (s : State) : (respond st s).inbox = s.inbox := rfl
@[simp] theorem respond_draws (st : BitVec 8) (s : State) : (respond st s).draws = s.draws := rfl

@[simp] theorem respondResult_r (r : Word) (st : BitVec 8) (s : State) : (respondResult r st s).r = r := rfl
@[simp] theorem respondResult_st (r : Word) (st : BitVec 8) (s : State) : (respondResult r st s).st = st := rfl
@[simp] theorem respondResult_cout (r : Word) (st : BitVec 8) (s : State) : (respondResult r st s).cout = s.cout := rfl
@[simp] theorem respondResult_coutLen (r : Word) (st : BitVec 8) (s : State) : (respondResult r st s).coutLen = 0#5 := rfl
@[simp] theorem respondResult_outstanding (r : Word) (st : BitVec 8) (s : State) : (respondResult r st s).outstanding = s.outstanding := rfl
@[simp] theorem respondResult_inbox (r : Word) (st : BitVec 8) (s : State) : (respondResult r st s).inbox = s.inbox := rfl
@[simp] theorem respondResult_draws (r : Word) (st : BitVec 8) (s : State) : (respondResult r st s).draws = s.draws := rfl

@[simp] theorem respondText_r (text : Vector Byte 26) (s : State) : (respondText text s).r = s.r := rfl
@[simp] theorem respondText_st (text : Vector Byte 26) (s : State) : (respondText text s).st = 0x00#8 := rfl
@[simp] theorem respondText_cout (text : Vector Byte 26) (s : State) : (respondText text s).cout = text := rfl
@[simp] theorem respondText_coutLen (text : Vector Byte 26) (s : State) : (respondText text s).coutLen = 26#5 := rfl
@[simp] theorem respondText_outstanding (text : Vector Byte 26) (s : State) : (respondText text s).outstanding = s.outstanding := rfl
@[simp] theorem respondText_inbox (text : Vector Byte 26) (s : State) : (respondText text s).inbox = s.inbox := rfl
@[simp] theorem respondText_draws (text : Vector Byte 26) (s : State) : (respondText text s).draws = s.draws := rfl

@[simp] theorem raiseError_r (e : CodecError) (s : State) : (raiseError e s).r = s.r := rfl
@[simp] theorem raiseError_st (e : CodecError) (s : State) : (raiseError e s).st = errorCode e := rfl
@[simp] theorem raiseError_cout (e : CodecError) (s : State) : (raiseError e s).cout = s.cout := rfl
@[simp] theorem raiseError_coutLen (e : CodecError) (s : State) : (raiseError e s).coutLen = 0#5 := rfl
@[simp] theorem raiseError_outstanding (e : CodecError) (s : State) : (raiseError e s).outstanding = s.outstanding := rfl
@[simp] theorem raiseError_inbox (e : CodecError) (s : State) : (raiseError e s).inbox = s.inbox := rfl
@[simp] theorem raiseError_draws (e : CodecError) (s : State) : (raiseError e s).draws = s.draws := rfl

@[simp] theorem afterDraw_r (s : State) : (afterDraw s).r = s.r := rfl
@[simp] theorem afterDraw_st (s : State) : (afterDraw s).st = s.st := rfl
@[simp] theorem afterDraw_cout (s : State) : (afterDraw s).cout = s.cout := rfl
@[simp] theorem afterDraw_coutLen (s : State) : (afterDraw s).coutLen = s.coutLen := rfl
@[simp] theorem afterDraw_outstanding (s : State) : (afterDraw s).outstanding = s.outstanding := rfl
@[simp] theorem afterDraw_inbox (s : State) : (afterDraw s).inbox = s.inbox := rfl
@[simp] theorem afterDraw_draws (s : State) : (afterDraw s).draws = s.draws + 1 := rfl

@[simp] theorem respondDraw_r (cin : List Byte) (st : BitVec 8) (s : State) : (respondDraw cin st s).r = Config.laxShortFill s.draws cin := rfl
@[simp] theorem respondDraw_st (cin : List Byte) (st : BitVec 8) (s : State) : (respondDraw cin st s).st = st := rfl
@[simp] theorem respondDraw_cout (cin : List Byte) (st : BitVec 8) (s : State) : (respondDraw cin st s).cout = s.cout := rfl
@[simp] theorem respondDraw_coutLen (cin : List Byte) (st : BitVec 8) (s : State) : (respondDraw cin st s).coutLen = 0#5 := rfl
@[simp] theorem respondDraw_outstanding (cin : List Byte) (st : BitVec 8) (s : State) : (respondDraw cin st s).outstanding = s.outstanding := rfl
@[simp] theorem respondDraw_inbox (cin : List Byte) (st : BitVec 8) (s : State) : (respondDraw cin st s).inbox = s.inbox := rfl
@[simp] theorem respondDraw_draws (cin : List Byte) (st : BitVec 8) (s : State) : (respondDraw cin st s).draws = s.draws + 1 := rfl

@[simp] theorem accept_r (q : Request) (s : State) : (accept q s).r = s.r := rfl
@[simp] theorem accept_st (q : Request) (s : State) : (accept q s).st = s.st := rfl
@[simp] theorem accept_cout (q : Request) (s : State) : (accept q s).cout = s.cout := rfl
@[simp] theorem accept_coutLen (q : Request) (s : State) : (accept q s).coutLen = s.coutLen := rfl
@[simp] theorem accept_outstanding (q : Request) (s : State) : (accept q s).outstanding = some q := rfl
@[simp] theorem accept_inbox (q : Request) (s : State) : (accept q s).inbox = s.inbox.tail := rfl
@[simp] theorem accept_draws (q : Request) (s : State) : (accept q s).draws = s.draws := rfl

@[simp] theorem passAction_r (s : State) : (passAction s).r = s.r := rfl
@[simp] theorem passAction_st (s : State) : (passAction s).st = s.st := rfl
@[simp] theorem passAction_cout (s : State) : (passAction s).cout = s.cout := rfl
@[simp] theorem passAction_coutLen (s : State) : (passAction s).coutLen = s.coutLen := rfl
@[simp] theorem passAction_outstanding (s : State) : (passAction s).outstanding = s.outstanding := rfl
@[simp] theorem passAction_inbox (s : State) : (passAction s).inbox = s.inbox.tail := rfl
@[simp] theorem passAction_draws (s : State) : (passAction s).draws = s.draws := rfl

@[simp] theorem release_r (s : State) : (release s).r = s.r := rfl
@[simp] theorem release_st (s : State) : (release s).st = s.st := rfl
@[simp] theorem release_cout (s : State) : (release s).cout = s.cout := rfl
@[simp] theorem release_coutLen (s : State) : (release s).coutLen = s.coutLen := rfl
@[simp] theorem release_outstanding (s : State) : (release s).outstanding = none := rfl
@[simp] theorem release_inbox (s : State) : (release s).inbox = s.inbox.tail := rfl
@[simp] theorem release_draws (s : State) : (release s).draws = s.draws := rfl

@[simp] theorem assertReset_r (s : State) : (assertReset s).r = 0#128 := rfl
@[simp] theorem assertReset_st (s : State) : (assertReset s).st = 0x00#8 := rfl
@[simp] theorem assertReset_cout (s : State) : (assertReset s).cout = Vector.replicate 26 0x00#8 := rfl
@[simp] theorem assertReset_coutLen (s : State) : (assertReset s).coutLen = 0#5 := rfl
@[simp] theorem assertReset_outstanding (s : State) : (assertReset s).outstanding = none := rfl
@[simp] theorem assertReset_inbox (s : State) : (assertReset s).inbox = s.inbox.tail := rfl
@[simp] theorem assertReset_draws (s : State) : (assertReset s).draws = s.draws := rfl

/-- The response's status is the only thing an error leaves, beside COUT_LEN (60_exceptions.md R75). -/
theorem raiseError_eq_respond (e : CodecError) (s : State) : raiseError e s = respond (errorCode e) s := rfl

end Sys2Proof.Machine
end

