-- ==== Sys2Proof/Laws/Steps.lean ====
section
/-! SUPPORT. Said once, everything an instruction, a request and a step can do. Later proofs split on these instead of
unfolding the machine. -/

namespace Sys2Proof.Machine

/-- What an instruction does: one of the four responses, of the same shape and the same values from every state. -/
theorem exec_cases (i : Instr) :
    (∃ r b, b.err = false ∧ b.illegalCmd = false ∧ (∀ v, i ≠ .fmt v) ∧ ∀ s, exec i s = .next (respondResult r (statusWord b) s))
      ∨ (∃ cin b, b.err = false ∧ b.illegalCmd = false ∧ i = .parseLax cin ∧ cin.length < 26
          ∧ ∀ s, exec i s = .next (respondDraw cin (statusWord b) s))
      ∨ (∃ v, i = .fmt v ∧ ∀ s, exec i s = .next (respondText (formatText v) s))
      ∨ (∃ cin e, i = .parse cin ∧ e ≠ .illegalCommand ∧ ∀ s, exec i s = .next (raiseError e s)) := by
  cases i with
  | cenc sym => exact .inl ⟨_, {}, rfl, rfl, by simp, fun _ => rfl⟩
  | cdec c => exact .inl ⟨_, { invalidChar := _ }, rfl, rfl, by simp, fun _ => rfl⟩
  | pack ms ent => exact .inl ⟨_, {}, rfl, rfl, by simp, fun _ => rfl⟩
  | xts v => exact .inl ⟨_, {}, rfl, rfl, by simp, fun _ => rfl⟩
  | cmp a b => exact .inl ⟨_, {}, rfl, rfl, by simp, fun _ => rfl⟩
  | fmt v => exact .inr (.inr (.inl ⟨v, rfl, fun _ => rfl⟩))
  | parse cin =>
    by_cases hl : cin.length = 26
    · cases hi : anyInvalid cin with
      | true => exact .inr (.inr (.inr ⟨cin, .invalidCharacter, rfl, by simp, fun _ => by simp [exec, execParse, hl, hi]⟩))
      | false => exact .inl ⟨_, { topBits := _ }, rfl, rfl, by simp, fun _ => by simp [exec, execParse, hl, hi]; rfl⟩
    · exact .inr (.inr (.inr ⟨cin, .wrongLength, rfl, by simp, fun _ => by simp [exec, execParse, hl]⟩))
  | parseLax cin =>
    by_cases hl : 26 ≤ cin.length
    · exact .inl ⟨_, { topBits := _, wrongLength := _, invalidChar := _ }, rfl, rfl, by simp,
        fun _ => by simp [exec, execParseLax, hl]; rfl⟩
    · exact .inr (.inl ⟨cin, { topBits := _, wrongLength := _, invalidChar := _ }, rfl, rfl, rfl, by omega,
        fun _ => by simp [exec, execParseLax, hl]; rfl⟩)

/-- What a request does: the same four, an error coming from an illegal command word or from PARSE. -/
theorem execute_cases (q : Request) :
    (∃ r b, b.err = false ∧ b.illegalCmd = false ∧ (∃ i, decode q = .ok i) ∧ q.cmd ≠ 0x04#8
        ∧ ∀ s, execute q s = .next (respondResult r (statusWord b) s))
      ∨ (∃ b, b.err = false ∧ b.illegalCmd = false ∧ q.cmd = 0x15#8 ∧ q.cin.length < 26
          ∧ ∀ s, execute q s = .next (respondDraw q.cin (statusWord b) s))
      ∨ (q.cmd = 0x04#8 ∧ ∀ s, execute q s = .next (respondText (formatText q.a) s))
      ∨ (∃ e, (decode q = .error .illegalCommand ∧ e = .illegalCommand ∨ q.cmd = 0x05#8 ∧ e ≠ .illegalCommand)
          ∧ ∀ s, execute q s = .next (raiseError e s)) := by
  rcases decode_cases q with ⟨i, hd⟩ | hd
  · have hx : ∀ s, execute q s = exec i s := fun s => by simp [execute, hd]
    have hc := commandWord_of_decode q i hd
    rcases exec_cases i with ⟨r, b, h1, h2, h3, h⟩ | ⟨cin, b, h1, h2, rfl, hl, h⟩ | ⟨v, rfl, h⟩ | ⟨cin, e, rfl, he, h⟩
    · refine .inl ⟨r, b, h1, h2, ⟨i, hd⟩, ?_, fun s => (hx s).trans (h s)⟩
      rw [← hc]
      clear hc hx h hd
      cases i <;> simp [commandWord]
      exact absurd rfl (h3 _)
    · obtain rfl := parseLax_of_decode q _ hd
      exact .inr (.inl ⟨b, h1, h2, hc.symm, hl, fun s => (hx s).trans (h s)⟩)
    · obtain rfl := fmt_of_decode q _ hd
      exact .inr (.inr (.inl ⟨hc.symm, fun s => (hx s).trans (h s)⟩))
    · exact .inr (.inr (.inr ⟨e, .inr ⟨hc.symm, he⟩, fun s => (hx s).trans (h s)⟩))
  · exact .inr (.inr (.inr ⟨.illegalCommand, .inl ⟨hd, rfl⟩, fun s => by simp [execute, hd]⟩))

/-- Answering a request leaves the interface alone: no new request in progress, no host action done. -/
theorem execute_interface (q : Request) (s t : State) (h : execute q s = .next t) :
    t.outstanding = s.outstanding ∧ t.inbox = s.inbox := by
  rcases execute_cases q with ⟨_, _, -, -, -, -, hx⟩ | ⟨_, -, -, -, -, hx⟩ | ⟨-, hx⟩ | ⟨_, -, hx⟩ <;>
    rw [hx] at h <;> cases h <;> exact ⟨rfl, rfl⟩

/-- What a step that answers a next state did: nothing (idle, or waiting for CIN), accepted a request, passed over an
await, took a reset, or answered the outstanding request. -/
theorem step_cases (s t : State) (h : step s = .next t) :
    (t = s ∧ (s.outstanding = none ∧ s.inbox = [] ∨ ∃ q, s.outstanding = some q ∧ awaitsStream q = true))
      ∨ (∃ q, s.outstanding = none ∧ s.inbox.head? = some (.issue q) ∧ t = accept q s)
      ∨ (s.outstanding = none ∧ s.inbox.head? = some .await ∧ t = passAction s)
      ∨ (s.inbox.head? = some .reset ∧ t = assertReset s)
      ∨ ∃ q, s.outstanding = some q ∧ awaitsStream q = false ∧ execute q (release s) = .next t := by
  have answered : ∀ q, s.outstanding = some q → serve q s = .next t →
      (t = s ∧ awaitsStream q = true) ∨ (awaitsStream q = false ∧ execute q (release s) = .next t) := by
    intro q _ hs
    cases hw : awaitsStream q <;> simp only [serve, hw, Bool.false_eq_true, if_true, if_false] at hs
    · exact .inr ⟨rfl, hs⟩
    · cases hs; exact .inl ⟨rfl, rfl⟩
  simp only [step, turn] at h
  split at h
  case h_1 ho hi => cases h; exact .inl ⟨rfl, .inl ⟨ho, hi⟩⟩
  case h_2 q _ ho hi => cases h; exact .inr (.inl ⟨q, ho, by simp [hi], rfl⟩)
  case h_3 ho hi => cases h; exact .inr (.inr (.inl ⟨ho, by simp [hi], rfl⟩))
  case h_4 hi => cases h; exact .inr (.inr (.inr (.inl ⟨by simp [hi], rfl⟩)))
  case h_6 => cases h
  case h_8 hi => cases h; exact .inr (.inr (.inr (.inl ⟨by simp [hi], rfl⟩)))
  case h_5 q ho _ =>
    exact (answered q ho h).imp (fun w => ⟨w.1, .inr ⟨q, ho, w.2⟩⟩) fun x => .inr (.inr (.inr ⟨q, ho, x⟩))
  case h_7 q _ ho _ =>
    exact (answered q ho h).imp (fun w => ⟨w.1, .inr ⟨q, ho, w.2⟩⟩) fun x => .inr (.inr (.inr ⟨q, ho, x⟩))

/-- A step that changes nothing can be repeated for ever. -/
theorem run_of_step_self (M : Host.Core) (s : M.State) (h : M.step s = .next s) : ∀ n, M.run n s = .next s
  | 0 => rfl
  | n + 1 => by simp only [Host.Core.run, h]; exact run_of_step_self M s h n

/-- The step after State.withFetchWord runs exactly the placed command, from the state it was placed in. -/
theorem step_withFetchWord (s : State) (w : Nat) :
    step (s.withFetchWord 8 w) = execute (tableRequest w) { s with outstanding := none } := by
  have hw : awaitsStream (tableRequest w) = false := by
    simp only [awaitsStream, tableRequest, Bool.not_true, Bool.and_false]
    split <;> rfl
  simp [step, turn, State.withFetchWord, serve, hw, release]

end Sys2Proof.Machine
end

