-- ==== Sys2Proof/Tests/Slice0.lean ====
section
/-! SUPPORT. Tests with results taken from spec/95_test_vectors.md (each names its vector), the smoke tests of
WellFormed.lean, and for every statement with hypotheses a witness that meets them. -/

open Sys2Proof Sys2Proof.Machine Sys2Proof.Reference

namespace Sys2Proof.Tests

/-! ### Helpers -/

/-- The next state of an outcome. -/
def nextOf : Host.Outcome State Fault Refusal → Option State
  | .next s => some s
  | .fault _ => none
  | .refused _ => none

/-- The characters of the numbers given. -/
def chars (ns : List Nat) : List Byte := ns.map (BitVec.ofNat 8)

/-- `00...0`, n characters. -/
def zeros (n : Nat) : List Byte := List.replicate n 0x30#8

/-- `01ARYZ6S41`, the first ten characters of L1-1. -/
def knownHead : List Byte := chars [0x30, 0x31, 0x41, 0x52, 0x59, 0x5A, 0x36, 0x53, 0x34, 0x31]

/-- A state with something in every register, which no reset leaves. -/
def used : State :=
  { State.reset with r := 0x01563DF3648100000000000000000000#128, st := 0x1C#8, cout := formatText 5#128, coutLen := 26#5 }

/-- A request, CIN ended. -/
def req (cmd : BitVec 8) (a b : Word) (cin : List Byte) : Request := ⟨cmd, a, b, cin, true⟩

/-- A state with a request outstanding and the host awaiting its response. -/
def asked (q : Request) : State := { used with outstanding := some q, inbox := [.await] }

/-! ### Well-formedness: each check refuses an ill-formed request -/

theorem test_wellFormed_accepts_parseLax : (req 0b00010101#8 0 0 (zeros 26)).wellFormed = true := by decide
theorem test_wellFormed_refuses_rsv5 : (req 0b00100101#8 0 0 (zeros 26)).wellFormed = false := by decide
theorem test_wellFormed_refuses_rsv6 : (req 0b01000101#8 0 0 []).wellFormed = false := by decide
theorem test_wellFormed_refuses_rsv7 : (req 0b10000101#8 0 0 []).wellFormed = false := by decide
theorem test_wellFormed_refuses_reserved_op_0 : (req 0b00000000#8 0 0 []).wellFormed = false := by decide
theorem test_wellFormed_refuses_reserved_op_8 : (req 0b00001000#8 0 0 []).wellFormed = false := by decide
theorem test_wellFormed_refuses_lax_cenc : (req 0b00010001#8 0 0 []).wellFormed = false := by decide
theorem test_wellFormed_refuses_unended_stream : ({ req 0x05#8 0 0 [] with ended := false }).wellFormed = false := by decide

/-! ### Decoding: words written out from R40 and R41, {RSV, L, OP} -/

theorem test_decode_cenc : decodeTableWord 8 0b00000001 = some (.cenc 0#5) := by decide
theorem test_decode_cdec : decodeTableWord 8 0b00000010 = some (.cdec 0#8) := by decide
theorem test_decode_pack : decodeTableWord 8 0b00000011 = some (.pack 0#64 0#80) := by decide
theorem test_decode_fmt : decodeTableWord 8 0b00000100 = some (.fmt 0#128) := by decide
theorem test_decode_parse : decodeTableWord 8 0b00000101 = some (.parse []) := by decide
theorem test_decode_parseLax : decodeTableWord 8 0b00010101 = some (.parseLax []) := by decide
theorem test_decode_xts : decodeTableWord 8 0b00000110 = some (.xts 0#128) := by decide
theorem test_decode_cmp : decodeTableWord 8 0b00000111 = some (.cmp 0#128 0#128) := by decide
/-- L2-ILL: exactly eight of the 256 words decode. -/
theorem test_decode_eight_words :
    (List.range 256).filter (fun w => (decodeTableWord 8 w).isSome) = [1, 2, 3, 4, 5, 6, 7, 0x15] := by decide
/-- The operand bits R43 lists: CENC drops bit 5 of A (L2-CENC-33), PACK drops B[87:80] (L2-PACK-12). -/
theorem test_decode_cenc_drops_high_bits : (decode (req 0x01#8 0x20#128 7#128 [])).toOption = some (.cenc 0#5) := by decide
theorem test_decode_pack_drops_high_bits :
    (decode (req 0x03#8 5#128 0xFF00000000000000000000#128 [])).toOption = some (.pack 5#64 0#80) := by decide

/-! ### Two tests per instruction -/

/-- L2-CENC-19: `CENC 18` is `J`, 0x4A. -/
theorem test_cenc_skips_i : (nextOf (exec (.cenc 18#5) used)).map State.r = some 0x4A#128 := by decide
/-- L2-CENC-35: A all ones is symbol 31, `Z`. -/
theorem test_cenc_all_ones :
    (nextOf (execute (req 0x01#8 (BitVec.allOnes 128) 0 []) used)).map (fun t => (t.r, t.st, t.coutLen))
      = some (0x5A#128, 0x00#8, 0#5) := by decide
/-- L2-CDEC-26: `u` is an alias of `0`, not an error. -/
theorem test_cdec_u : (nextOf (exec (.cdec 0x75#8) used)).map (fun t => (t.r, t.st)) = some (0#128, 0x00#8) := by decide
/-- L2-CDEC-50: 0xA0 is invalid; R is written all the same, and ERR is 0. -/
theorem test_cdec_invalid :
    (nextOf (execute (req 0x02#8 0x1A0#128 0 []) used)).map (fun t => (t.r, t.st)) = some (0#128, 0x04#8) := by decide
/-- L2-PACK-08: the timestamp's high bits are lost, the entropy's byte order is kept. -/
theorem test_pack_truncates :
    (nextOf (exec (.pack 0x0123456789ABCDEF#64 0x0102030405060708090A#80) used)).map State.r
      = some 0x456789ABCDEF0102030405060708090A#128 := by decide
/-- L2-PACK-10: the entropy's top bit is bit 7 of id[6]. -/
theorem test_pack_entropy_top_bit :
    (nextOf (exec (.pack 0#64 0x80000000000000000000#80) used)).map (fun t => (t.r, t.st))
      = some (0x00000000000080000000000000000000#128, 0x00#8) := by decide
/-- L2-XTS-06. -/
theorem test_xts_timestamp :
    (nextOf (exec (.xts 0x0159A7F2BBE004040404040404040404#128) used)).map State.r = some 1484581420000#128 := by decide
/-- L2-XTS-04: entropy bits never reach the result. -/
theorem test_xts_no_entropy :
    (nextOf (exec (.xts 0x000000000000FFFFFFFFFFFFFFFFFFFF#128) used)).map State.r = some 0#128 := by decide
/-- L2-CMP-06: unsigned in byte 0. -/
theorem test_cmp_unsigned :
    (nextOf (exec (.cmp 0x80000000000000000000000000000000#128 0x7FFFFFFFFFFFFFFFFFFFFFFFFFFFFFFF#128) used)).map State.r
      = some 1#128 := by decide
/-- L2-CMP-11: the timestamp decides over any entropy; -1 is 128 ones. -/
theorem test_cmp_minus_one :
    (nextOf (exec (.cmp 0x01563DF36481FFFFFFFFFFFFFFFFFFFF#128 0x01563DF3648200000000000000000000#128) used)).map State.r
      = some 0xFFFFFFFFFFFFFFFFFFFFFFFFFFFFFFFF#128 := by decide
/-- L2-FMT-11: `014D2PF2DBSQQG28T5CY4TQKFF`; R is unchanged. -/
theorem test_fmt_mixed :
    (nextOf (exec (.fmt 0x0123456789ABCDEF0123456789ABCDEF#128) used)).map (fun t => (t.cout.toList, t.coutLen, t.r))
      = some (chars [0x30, 0x31, 0x34, 0x44, 0x32, 0x50, 0x46, 0x32, 0x44, 0x42, 0x53, 0x51, 0x51, 0x47, 0x32, 0x38, 0x54,
          0x35, 0x43, 0x59, 0x34, 0x54, 0x51, 0x4B, 0x46, 0x46], 26#5, used.r) := by decide
/-- L2-FMT-09: the highest entropy bit is the high bit of group 10, `G`. -/
theorem test_fmt_boundary :
    (nextOf (exec (.fmt 0x00000000000080000000000000000000#128) used)).map (fun t => t.cout.toList)
      = some (zeros 10 ++ [0x47#8] ++ zeros 15) := by decide
/-- L2-PARSE-11: `8ZZZ...`: bit 127 is lost, TOPBITS is set, the input is accepted. -/
theorem test_parse_topbits :
    (nextOf (exec (.parse (0x38#8 :: List.replicate 25 0x5A#8)) used)).map (fun t => (t.r, t.st))
      = some (0x1FFFFFFFFFFFFFFFFFFFFFFFFFFFFFFF#128, 0x10#8) := by decide
/-- L2-PARSE-23: 27 bytes with invalid ones: the length is checked first, and R is unchanged. -/
theorem test_parse_length_first :
    (nextOf (exec (.parse (chars [0x30, 0x23] ++ zeros 23 ++ chars [0x23, 0x23])) used)).map
      (fun t => (t.r, t.st, t.coutLen)) = some (used.r, 0x09#8, 0#5) := by decide
/-- L2-PARSE-23, lax: the first 26 bytes, `#` read as 0, both conditions reported. -/
theorem test_parseLax_long :
    (nextOf (exec (.parseLax (chars [0x30, 0x23, 0x41, 0x52, 0x59, 0x5A, 0x36, 0x53, 0x34, 0x31] ++ zeros 15
        ++ chars [0x23, 0x23])) used)).map (fun t => (t.r, t.st))
      = some (0x00563DF3648100000000000000000000#128, 0x0C#8) := by decide
/-- L2-PARSE-27, lax: one byte `8`; ST is defined, R is not looked at. -/
theorem test_parseLax_short :
    (nextOf (exec (.parseLax [0x38#8]) used)).map (fun t => (t.st, t.coutLen, t.cout)) = some (0x18#8, 0#5, used.cout) := by
  decide

/-! ### Steps -/

/-- L2-ILL-11: PARSE with RSV[5] set is not parsed; R and COUT keep their values, COUT_LEN drops to 0. -/
theorem test_step_illegal :
    (nextOf (step (asked (req 0x25#8 0 0 (zeros 26))))).map State.response
      = some { r := used.r, st := 0x03#8, cout := used.cout, coutLen := 0#5 } := by decide
/-- L1-1: PARSE "01ARYZ6S410000000000000000" through a step. -/
theorem test_step_known_vector :
    (nextOf (step (asked (req 0x05#8 0 0 (knownHead ++ zeros 16))))).map (fun t => (t.r, t.st, t.outstanding, t.inbox))
      = some (0x01563DF3648100000000000000000000#128, 0x00#8, none, []) := by decide
/-- The placed command is the first thing that runs after reset: FMT of 0 is 26 × `0` (L2-FMT-01). -/
theorem test_step_first_after_reset :
    (nextOf (step (State.reset.withFetchWord 8 0x04))).map (fun t => (t.cout.toList, t.coutLen)) = some (zeros 26, 26#5) := by
  decide
/-- R88: reset asserted while a request is in progress. -/
theorem test_step_reset_abandons :
    (nextOf (step { asked (req 0x04#8 1 0 []) with inbox := [.reset] })).map (fun t => (t.response, t.outstanding))
      = some (State.reset.response, none) := by decide

/-! ### Witnesses: the hypotheses of each statement can be met, clause by clause -/

/-- CommandWordSelectsOperation, EncodeOfDecodeKeepsWhatIsRead: a request that decodes. -/
theorem witness_decodes : decode (req 0x15#8 0 0 (zeros 3)) = .ok (.parseLax (zeros 3)) := rfl
/-- LegalityFormulaIsTheEightWords: the words at the borders of the legal ones. -/
theorem witness_illegal_words : ∀ w ∈ [0x00#8, 0x08#8, 0x14#8, 0x16#8, 0x25#8, 0xFF#8], legalCommand w = false := by decide
/-- OperandBitsAreTheListedOnes: for each command two requests that differ and agree on what it reads. -/
theorem witness_reads_same :
    ReadsSame (req 0x01#8 0x1F#128 0 []) (req 0x01#8 0x3F#128 1 (zeros 1))
      ∧ ReadsSame (req 0x02#8 0xFF#128 0 []) (req 0x02#8 0x1FF#128 1 (zeros 1))
      ∧ ReadsSame (req 0x03#8 0 0 []) (req 0x03#8 0x10000000000000000#128 0x100000000000000000000#128 (zeros 1))
      ∧ ReadsSame (req 0x04#8 5 0 []) (req 0x04#8 5 1 (zeros 1)) ∧ ReadsSame (req 0x05#8 0 0 (zeros 2)) (req 0x05#8 1 1 (zeros 2))
      ∧ ReadsSame (req 0x15#8 0 0 (zeros 2)) (req 0x15#8 1 1 (zeros 2)) ∧ ReadsSame (req 0x06#8 5 0 []) (req 0x06#8 5 1 (zeros 1))
      ∧ ReadsSame (req 0x07#8 5 6 []) (req 0x07#8 5 6 (zeros 1)) ∧ ReadsSame (req 0x00#8 5 6 []) (req 0x00#8 7 8 (zeros 1)) := by
  simp [ReadsSame, req]
/-- StepRunsTheDecodedCommand, for a command that reads CIN, the host awaiting; and with the host doing nothing. -/
theorem witness_step_runs :
    (asked (req 0x05#8 0 0 (zeros 26))).outstanding = some (req 0x05#8 0 0 (zeros 26))
      ∧ (asked (req 0x05#8 0 0 (zeros 26))).inbox = [.await]
      ∧ decode (req 0x05#8 0 0 (zeros 26)) = .ok (.parse (zeros 26)) ∧ (req 0x05#8 0 0 (zeros 26)).ended = true
      ∧ ({ asked (req 0x06#8 7 0 []) with inbox := [] }).outstanding = some (req 0x06#8 7 0 []) := by decide
/-- IllegalCommandIsAnswered: an illegal word whose CIN is not even ended. -/
theorem witness_illegal_outstanding :
    (asked ⟨0x25#8, 1, 2, zeros 26, false⟩).outstanding = some ⟨0x25#8, 1, 2, zeros 26, false⟩ ∧ 0x25#8 ∉ commandWords := by
  decide
/-- EveryCommandCompletes: both sides of the draw's border, 25 and 26 bytes. -/
theorem witness_draw_border : (zeros 25).length < 26 ∧ ¬ (zeros 26).length < 26 := by decide
/-- TablesAreInverse: valid bytes at the ends of the ranges. -/
theorem witness_valid_bytes :
    ∀ c ∈ [0x30#8, 0x39#8, 0x41#8, 0x55#8, 0x5A#8, 0x61#8, 0x6C#8, 0x7A#8], (decodeChar c).valid = true := by decide
/-- CencWritesTheCharacter and the other statements with a clause on the command word: a request with each word. -/
theorem witness_command_words : commandWords.map (fun w => (req w 3 4 (zeros 26)).cmd) = commandWords := by decide
/-- PackPlacesTimestampAndEntropy, TimestampRoundTrip, ReportedConditionsAreNotErrors: both sides of 2^48. -/
theorem witness_timestamp_border : (0xFFFFFFFFFFFF#64).toNat < 2 ^ 48 ∧ 2 ^ 48 ≤ (0x1000000000000#64).toNat := by decide
/-- CmpEarliestDifferingByteDecides: equal, earliest difference in byte 0, and in byte 15, either way. -/
theorem witness_cmp_bytes :
    (∀ i < 16, byteOf 77 i = byteOf 77 i) ∧ byteOf (2 ^ 127) 0 > byteOf (2 ^ 127 - 1) 0
      ∧ (∀ j < 15, byteOf 0x7F j = byteOf 0x80 j) ∧ byteOf 0x7F 15 < byteOf 0x80 15 := by decide
/-- ComparisonLaws: timestamps in order, entropies the other way. -/
theorem witness_timestamps_in_order :
    0x01563DF36481FFFFFFFFFFFFFFFFFFFF / 2 ^ 80 < 0x01563DF3648200000000000000000000 / 2 ^ 80 := by decide
/-- FmtStaysInTheAlphabet, FmtKeepsTheOrder, ParseOfFormatIsIdentity: FMT answers a next state. -/
theorem witness_fmt_answers : ∃ t u, exec (.fmt 0#128) used = .next t ∧ exec (.fmt (BitVec.allOnes 128)) used = .next u :=
  ⟨_, _, rfl, rfl⟩
/-- ReassemblyIsTheInverseOfSlicing, BytesFromSymbolsTable: 26 symbols, the first with its two high bits set. -/
theorem witness_symbols : (0b11111#5 :: List.replicate 25 1#5).length = 26 := by decide
/-- ParseIsStrict: a clause each. 25 and 27 bytes; 26 with an invalid one at position 25; 26 good ones, the first of them
symbol 7 and symbol 8. -/
theorem witness_parse_clauses :
    (zeros 25).length ≠ 26 ∧ (zeros 27).length ≠ 26
      ∧ ((zeros 25 ++ [0x23#8]).length = 26 ∧ ∃ c ∈ zeros 25 ++ [0x23#8], hasSymbol c = false)
      ∧ ((0x37#8 :: zeros 25).length = 26 ∧ (∀ c ∈ 0x37#8 :: zeros 25, hasSymbol c = true)
          ∧ firstIsTop (0x37#8 :: zeros 25) = false)
      ∧ ((0x38#8 :: zeros 25).length = 26 ∧ (∀ c ∈ 0x38#8 :: zeros 25, hasSymbol c = true)
          ∧ firstIsTop (0x38#8 :: zeros 25) = true) := by decide
/-- ParseLaxReportsAndRejectsNothing: 26 and 27 bytes, 25 and none. -/
theorem witness_lax_clauses :
    26 ≤ (zeros 26).length ∧ 26 ≤ (zeros 27).length ∧ (zeros 25).length < 26 ∧ ([] : List Byte).length < 26 := by decide
/-- LaxAgreesWhereStrictAccepts, FormatOfParseIsCanonical: an accepted PARSE with TOPBITS 0, one with TOPBITS 1, and the FMT
after it. -/
theorem witness_parse_then_format :
    (∃ t, exec (.parse (0x69#8 :: zeros 25)) used = .next t ∧ stErr t.st = false ∧ stTopBits t.st = false
        ∧ ∃ u, exec (.fmt t.r) t = .next u)
      ∧ ∃ t, exec (.parse (0x7A#8 :: zeros 25)) used = .next t ∧ stErr t.st = false ∧ stTopBits t.st = true
        ∧ ∃ u, exec (.fmt t.r) t = .next u :=
  ⟨⟨_, rfl, by decide, by decide, _, rfl⟩, ⟨_, rfl, by decide, by decide, _, rfl⟩⟩
/-- ReportedConditionsAreNotErrors: a byte with no symbol. -/
theorem witness_invalid_bytes : ∀ c ∈ [0x00#8, 0x2F#8, 0x3A#8, 0x40#8, 0x5B#8, 0x60#8, 0x7B#8, 0x80#8, 0xFF#8],
    hasSymbol c = false := by decide
/-- AtMostOneErrorInOrder, ResultRegisterIsWrittenInFull, StatusIsNeverSticky, TextBufferIsWrittenByFmtOnly, NoHiddenState:
requests of each kind answer a next state: illegal, PARSE rejected, FMT, and one that writes R. -/
theorem witness_requests_answered :
    (∃ t, execute (req 0x00#8 0 0 []) used = .next t ∧ stErr t.st = true)
      ∧ (∃ t, execute (req 0x05#8 0 0 (zeros 25 ++ [0x23#8])) used = .next t ∧ stErr t.st = true)
      ∧ (∃ t, execute (req 0x04#8 9 0 []) used = .next t ∧ stErr t.st = false)
      ∧ (∃ t, execute (req 0x06#8 9 0 []) used = .next t ∧ stErr t.st = false)
      ∧ ∃ t, execute (req 0x06#8 9 0 []) { used with st := 0x09#8, coutLen := 0#5, draws := 3 } = .next t :=
  ⟨⟨_, rfl, by decide⟩, ⟨_, rfl, by decide⟩, ⟨_, rfl, by decide⟩, ⟨_, rfl, by decide⟩, ⟨_, rfl⟩⟩
/-- StatusIsNeverSticky: an idle core accepts a request. -/
theorem witness_accepts :
    ({ used with inbox := [.issue (req 0x06#8 9 0 [])] } : State).outstanding = none
      ∧ ∃ t, step { used with inbox := [.issue (req 0x06#8 9 0 [])] } = .next t := ⟨rfl, _, rfl⟩
/-- TextBufferIsWrittenByFmtOnly: COUT_LEN 26 before a step, and 0. -/
theorem witness_text_lengths : used.coutLen = 26#5 ∧ State.reset.coutLen = 0#5 ∧ ∃ t, step used = .next t :=
  ⟨by decide, by decide, _, rfl⟩
/-- ResetAbandonsTheRequest: reset during a request, the next request following. -/
theorem witness_reset_then_request :
    ({ asked (req 0x04#8 1 0 []) with inbox := [.reset, .issue (req 0x06#8 9 0 [])] } : State).inbox
      = .reset :: [.issue (req 0x06#8 9 0 [])] := rfl
/-- IdleCoreKeepsItsRegisters, RequestsTakeEffectInIssueOrder: an idle state that is not reset's, and a sequence of
requests, an illegal one among them, that none waits on. -/
theorem witness_idle :
    used.outstanding = none ∧ used.inbox = [] ∧ used ≠ State.reset
      ∧ ∀ q ∈ [req 0x03#8 1 2 [], req 0xFF#8 0 0 [], req 0x15#8 0 0 (zeros 3)], awaitsStream q = false := by decide
/-- OnlyASecondRequestIsRefused: a second request while one is outstanding, and a state where there is none. -/
theorem witness_second_request :
    ({ asked (req 0x04#8 1 0 []) with inbox := [.issue (req 0x06#8 9 0 [])] } : State).outstanding.isSome = true
      ∧ ¬ used.outstanding.isSome = true := by decide
/-- UnterminatedStreamWaitsForEver: PARSE and PARSE.LAX with an unended CIN, the host awaiting. -/
theorem witness_unended :
    (asked ⟨0x05#8, 0, 0, zeros 26, false⟩).outstanding = some ⟨0x05#8, 0, 0, zeros 26, false⟩
      ∧ (asked ⟨0x15#8, 0, 0, [], false⟩).outstanding = some ⟨0x15#8, 0, 0, [], false⟩
      ∧ (asked ⟨0x15#8, 0, 0, [], false⟩).inbox = [.await] := by decide
/-- EveryStepKeepsTheInvariant: a state with a text in COUT that meets the invariant and steps. -/
theorem witness_invariant :
    ({ used with st := 0x00#8 } : State).Inv ∧ ∃ t, step { used with st := 0x00#8 } = .next t := by
  refine ⟨⟨?_, ?_, ?_⟩, _, rfl⟩ <;> decide
/-- DutifulHostIsAlwaysServed: a dutiful host with a request outstanding and more to come. -/
theorem witness_dutiful :
    ({ asked (req 0x05#8 0 0 (zeros 26)) with
        inbox := [.await, .issue (req 0x04#8 1 0 []), .await, .reset] } : State).dutiful = true := by decide

end Sys2Proof.Tests
end

section
/-! What answering a request, and what a step, does to the output character buffer COUT and to COUT_LEN
(spec/10_state.md R22). -/

namespace Sys2Proof.Machine

/-! ### What the host may read of COUT -/

theorem visibleText_of_coutLen_zero (s : State) (h : s.coutLen = 0#5) : s.visibleText = [] := by
  simp [State.visibleText, h]

theorem visibleText_of_coutLen_full (s : State) (h : s.coutLen = 26#5) : s.visibleText = s.cout.toList := by
  have hall : s.cout.toList.length ≤ s.coutLen.toNat := by simp [h]
  exact List.take_of_length_le hall

/-! ### COUT and COUT_LEN after a request -/

theorem execute_of_fmt (q : Request) (s : State) (hq : q.cmd = 0x04#8) :
    execute q s = .next (respondText (formatText q.a) s) := by
  have hd : decode q = .ok (.fmt q.a) := by simp only [decode, hq]
  simp only [execute, hd, exec, execFmt]

/-- The other three responses of `execute_cases` all leave COUT and clear COUT_LEN. -/
theorem execute_text_of_not_fmt (q : Request) (s t : State) (hq : q.cmd ≠ 0x04#8) (h : execute q s = .next t) :
    t.cout = s.cout ∧ t.coutLen = 0#5 := by
  rcases execute_cases q with ⟨r, b, -, -, -, -, result⟩ | ⟨b, -, -, -, -, draw⟩ | ⟨fmt, -⟩ | ⟨e, -, error⟩
  · cases (result s).symm.trans h
    exact ⟨respondResult_cout .., respondResult_coutLen ..⟩
  · cases (draw s).symm.trans h
    exact ⟨respondDraw_cout .., respondDraw_coutLen ..⟩
  · exact absurd fmt hq
  · cases (error s).symm.trans h
    exact ⟨raiseError_cout .., raiseError_coutLen ..⟩

/-- No premise on COUT_LEN before: every request writes it (R22). -/
theorem execute_coutLen (q : Request) (s t : State) (h : execute q s = .next t) :
    t.coutLen = 0#5 ∨ t.coutLen = 26#5 := by
  by_cases hq : q.cmd = 0x04#8
  · cases (execute_of_fmt q s hq).symm.trans h
    exact .inr (respondText_coutLen ..)
  · exact .inl (execute_text_of_not_fmt q s t hq h).2

/-! ### COUT_LEN along a run -/

/-- A step leaves COUT_LEN alone, resets it, or answers a request. -/
theorem step_keeps_coutLen (s t : State) (hs : s.coutLen = 0#5 ∨ s.coutLen = 26#5) (h : step s = .next t) :
    t.coutLen = 0#5 ∨ t.coutLen = 26#5 := by
  rcases step_cases s t h with ⟨rfl, -⟩ | ⟨q, -, -, rfl⟩ | ⟨-, -, rfl⟩ | ⟨-, rfl⟩ | ⟨q, -, -, answered⟩
  · exact hs
  · rwa [accept_coutLen]
  · rwa [passAction_coutLen]
  · exact .inl (assertReset_coutLen s)
  · exact execute_coutLen q (release s) t answered

/-- Settles O40: FMT is the one response that writes COUT, and COUT_LEN is kept at 0 or 26 by the cases of a step. -/
theorem textBufferIsWrittenByFmtOnly : Obligations.TextBufferIsWrittenByFmtOnly := by
  refine ⟨fun q s t h => ⟨fun hq => ?fmt, fun hq => ?other⟩, step_keeps_coutLen⟩
  case fmt =>
    cases (execute_of_fmt q s hq).symm.trans h
    exact ⟨respondText_cout .., respondText_coutLen .., visibleText_of_coutLen_full _ (respondText_coutLen ..)⟩
  case other =>
    obtain ⟨hcout, hlen⟩ := execute_text_of_not_fmt q s t hq h
    exact ⟨hcout, hlen, visibleText_of_coutLen_zero t hlen⟩

end Sys2Proof.Machine
end

section
/-! The bytes of an identifier: byte `i` as a quotient and remainder of V, V read back from its 16 bytes, and the
bytes of each of the two fields (spec/20_memory.md R28 to R30). -/

namespace Sys2Proof.Machine

open Sys2Proof.Reference

/-! ### An identifier is the base-256 numeral of its bytes -/

theorem idByte_toNat (v : Word) (i : Fin 16) : (idByte v i).toNat = byteOf v.toNat i := by
  have e : (256 : ℕ) ^ (15 - i.val) = 2 ^ (120 - 8 * i.val) := by
    rw [show (256 : ℕ) = 2 ^ 8 from rfl, ← pow_mul]; congr 1; omega
  rw [idByte, BitVec.extractLsb'_toNat, Nat.shiftRight_eq_div_pow, byteOf, e]

theorem idBytes_map_toNat (v : Word) :
    (idBytes v).map BitVec.toNat = (List.range 16).map (byteOf v.toNat) := by
  rw [idBytes, List.map_map, ← List.map_coe_finRange_eq_range, List.map_map]
  exact List.map_congr_left fun i _ => idByte_toNat v i

theorem foldl_idBytes (v : Word) : (idBytes v).foldl (fun n b => 256 * n + b.toNat) 0 = v.toNat := by
  calc (idBytes v).foldl (fun n b => 256 * n + b.toNat) 0
      = ((idBytes v).map BitVec.toNat).foldl (fun n d => 256 * n + d) 0 := by rw [List.foldl_map]
    _ = ((List.range 16).map (byteOf v.toNat)).foldl (fun n d => 256 * n + d) 0 := by rw [idBytes_map_toNat]
    _ = v.toNat / 256 ^ (16 - 16) % 256 ^ 16 := foldl_digits 256 16 v.toNat 16 le_rfl
    _ = v.toNat := by have := v.isLt; omega

/-- Settles O21: the bytes are the base-256 digits of V, and reading all 16 digits gives V back. -/
theorem identifierIsBigEndian : Obligations.IdentifierIsBigEndian :=
  fun v => ⟨idByte_toNat v, idBytes_length v, (foldl_idBytes v).symm⟩

/-! ### Packing and the two fields -/

theorem packIdentifier_timestampOf_entropyOf (v : Word) : packIdentifier (timestampOf v) (entropyOf v) = v := by
  apply BitVec.eq_of_toNat_eq
  rw [packIdentifier_toNat, timestampOf_toNat, entropyOf_toNat]
  exact Nat.div_add_mod' ..

@[simp] theorem timestampOf_packIdentifier (ts : BitVec 48) (ent : BitVec 80) :
    timestampOf (packIdentifier ts ent) = ts := by
  apply BitVec.eq_of_toNat_eq
  have := ent.isLt
  rw [timestampOf_toNat, packIdentifier_toNat]
  omega

@[simp] theorem entropyOf_packIdentifier (ts : BitVec 48) (ent : BitVec 80) :
    entropyOf (packIdentifier ts ent) = ent := by
  apply BitVec.eq_of_toNat_eq
  have := ent.isLt
  rw [entropyOf_toNat, packIdentifier_toNat]
  omega

/-! ### The bytes of each field -/

/-- The timestamp's bytes come first: the place value of byte `i < 6` of V is `2 ^ 80` times that of byte `i` of the
timestamp. -/
theorem idByte_toNat_of_lt_six (v : Word) (i : Fin 16) (hi : i.val < 6) :
    (idByte v i).toNat = (timestampOf v).toNat / 256 ^ (5 - i.val) % 256 := by
  have e : (256 : ℕ) ^ (15 - i.val) = 2 ^ 80 * 256 ^ (5 - i.val) := by
    rw [show 15 - i.val = 10 + (5 - i.val) by omega, pow_add]; rfl
  rw [idByte_toNat, byteOf, e, ← Nat.div_div_eq_div_mul, timestampOf_toNat]

/-- The entropy's bytes come last: the place values of bytes 6 to 15 divide `2 ^ 80` with a byte to spare, so the
timestamp above does not reach them. -/
theorem idByte_toNat_of_six_le (v : Word) (i : Fin 16) (hi : 6 ≤ i.val) :
    (idByte v i).toNat = (entropyOf v).toNat / 256 ^ (15 - i.val) % 256 := by
  have e : (2 : ℕ) ^ 80 = 256 ^ (15 - i.val) * 256 ^ (i.val - 5) := by
    rw [← pow_add, show 15 - i.val + (i.val - 5) = 10 by omega]; rfl
  have spare : (256 : ℕ) ∣ 256 ^ (i.val - 5) := dvd_pow_self 256 (by omega)
  rw [idByte_toNat, byteOf, entropyOf_toNat, e, Nat.mod_mul_right_div_self, Nat.mod_mod_of_dvd _ spare]

/-- Settles O22: packing and slicing are inverse, and the bytes of V split at `2 ^ 80` into those of its two fields. -/
theorem identifierFieldsAreItsBytes : Obligations.IdentifierFieldsAreItsBytes := by
  refine ⟨packIdentifier_timestampOf_entropyOf, fun ts ent =>
    ⟨timestampOf_packIdentifier ts ent, entropyOf_packIdentifier ts ent, fun i hi => ?timestamp, fun i hi => ?entropy⟩⟩
  case timestamp => rw [idByte_toNat_of_lt_six _ i hi, timestampOf_packIdentifier]
  case entropy => rw [idByte_toNat_of_six_le _ i hi, entropyOf_packIdentifier]

end Sys2Proof.Machine
end

section
/-! Which command words select an operation, and whose each of them is (spec/30_encoding.md R41). -/

namespace Sys2Proof.Machine

open Sys2Proof.Reference

theorem commandWord_mem_commandWords (i : Instr) : commandWord i ∈ commandWords := by
  cases i <;> simp [commandWord, commandWords]

theorem exists_decode_of_mem_commandWords (q : Request) (hq : q.cmd ∈ commandWords) : ∃ i, decode q = .ok i := by
  obtain ⟨cmd, a, b, cin, ended⟩ := q
  simp only [commandWords, List.mem_cons, List.not_mem_nil, or_false] at hq
  rcases hq with rfl | rfl | rfl | rfl | rfl | rfl | rfl | rfl <;> exact ⟨_, rfl⟩

theorem exists_decode_iff_mem_commandWords (q : Request) : (∃ i, decode q = .ok i) ↔ q.cmd ∈ commandWords := by
  refine ⟨fun ⟨i, hd⟩ => ?_, exists_decode_of_mem_commandWords q⟩
  rw [← commandWord_of_decode q i hd]
  exact commandWord_mem_commandWords i

/-- The CMD column of R41 read backwards: the eight words differ, so each is the word of its own row only. -/
theorem commandWord_eq_iff_row (i : Instr) :
    (commandWord i = 0x01#8 ↔ ∃ sym, i = .cenc sym) ∧ (commandWord i = 0x02#8 ↔ ∃ c, i = .cdec c)
      ∧ (commandWord i = 0x03#8 ↔ ∃ ms ent, i = .pack ms ent) ∧ (commandWord i = 0x04#8 ↔ ∃ v, i = .fmt v)
      ∧ (commandWord i = 0x05#8 ↔ ∃ cin, i = .parse cin) ∧ (commandWord i = 0x15#8 ↔ ∃ cin, i = .parseLax cin)
      ∧ (commandWord i = 0x06#8 ↔ ∃ v, i = .xts v) ∧ (commandWord i = 0x07#8 ↔ ∃ a b, i = .cmp a b) := by
  cases i <;> simp [commandWord]

/-- Settles O1: what a request decodes to carries the request's command word, and that word tells the row. -/
theorem commandWordSelectsOperation : Obligations.CommandWordSelectsOperation := by
  refine ⟨exists_decode_iff_mem_commandWords, fun q i hd => ?_⟩
  rw [← commandWord_of_decode q i hd]
  exact commandWord_eq_iff_row i

end Sys2Proof.Machine
end

section
/-! The binary layout operations PACK, XTS and CMP: the operands each takes from its request, and its response with R
given as a number (spec/40_layout.md R49, R50 and R52). -/

namespace Sys2Proof.Machine

open Sys2Proof.Reference

/-! ### The operands -/

theorem decode_of_pack (q : Request) (hq : q.cmd = 0x03#8) :
    decode q = .ok (.pack (BitVec.ofNat 64 q.a.toNat) (BitVec.ofNat 80 q.b.toNat)) := by
  simp only [decode, hq, BitVec.extractLsb', Nat.shiftRight_zero]

theorem decode_of_xts (q : Request) (hq : q.cmd = 0x06#8) : decode q = .ok (.xts q.a) := by
  simp only [decode, hq]

theorem decode_of_cmp (q : Request) (hq : q.cmd = 0x07#8) : decode q = .ok (.cmp q.a q.b) := by
  simp only [decode, hq]

/-! ### The responses -/

theorem exec_pack (ms : BitVec 64) (ent : BitVec 80) (s : State) :
    exec (.pack ms ent) s = .next (respondResult (packIdentifier (ms.extractLsb' 0 48) ent) 0x00#8 s) := rfl

theorem exec_xts (v : Word) (s : State) :
    exec (.xts v) s = .next (respondResult ((timestampOf v).setWidth 128) 0x00#8 s) := rfl

/-! ### PACK and XTS -/

theorem packIdentifier_truncated_eq_ofNat (ms : BitVec 64) (ent : BitVec 80) :
    packIdentifier (ms.extractLsb' 0 48) ent = BitVec.ofNat 128 (ms.toNat % 2 ^ 48 * 2 ^ 80 + ent.toNat) := by
  apply BitVec.eq_of_toNat_eq
  have := ent.isLt
  rw [packIdentifier_toNat, BitVec.extractLsb'_toNat, Nat.shiftRight_zero, BitVec.toNat_ofNat]
  omega

/-- Settles O15: the packed identifier is the truncated timestamp above the 80 bits of the entropy. -/
theorem packPlacesTimestampAndEntropy : Obligations.PackPlacesTimestampAndEntropy := by
  refine ⟨decode_of_pack, fun ms ent s => ?_⟩
  rw [exec_pack, packIdentifier_truncated_eq_ofNat, respondResult]

theorem timestampOf_setWidth_eq_ofNat (v : Word) :
    (timestampOf v).setWidth 128 = BitVec.ofNat 128 (v.toNat / 2 ^ 80) := by
  apply BitVec.eq_of_toNat_eq
  rw [BitVec.toNat_setWidth, timestampOf_toNat, BitVec.toNat_ofNat]

/-- Settles O16: the timestamp field is the quotient of V by `2 ^ 80`. -/
theorem xtsReadsTheTimestamp : Obligations.XtsReadsTheTimestamp := by
  refine ⟨decode_of_xts, fun v s => ?_⟩
  rw [exec_xts, timestampOf_setWidth_eq_ofNat, respondResult]

/-! ### CMP compares the values -/

/-- CMP's c for two numbers, as R52 encodes it: -1, 0 or +1 in two bits. -/
def orderCode (m n : Nat) : BitVec 2 :=
  if m < n then 0b11#2 else if n < m then 0b01#2 else 0b00#2

theorem orderCode_of_lt {m n : Nat} (h : m < n) : orderCode m n = 0b11#2 := if_pos h

theorem orderCode_of_gt {m n : Nat} (h : n < m) : orderCode m n = 0b01#2 := by
  rw [orderCode, if_neg h.asymm, if_pos h]

@[simp] theorem orderCode_self (n : Nat) : orderCode n n = 0b00#2 := by simp [orderCode]

theorem signExtend_orderCode_of_lt {m n : Nat} (h : m < n) :
    (orderCode m n).signExtend 128 = 0xFFFFFFFFFFFFFFFFFFFFFFFFFFFFFFFF#128 := by
  rw [orderCode_of_lt h]; decide

theorem signExtend_orderCode_of_eq {m n : Nat} (h : m = n) : (orderCode m n).signExtend 128 = 0#128 := by
  rw [h, orderCode_self]; decide

theorem signExtend_orderCode_of_gt {m n : Nat} (h : n < m) : (orderCode m n).signExtend 128 = 1#128 := by
  rw [orderCode_of_gt h]; decide

theorem compareBytes_singleton (x y : Byte) : compareBytes [x] [y] = orderCode x.toNat y.toNat := by
  by_cases h : x = y
  · subst h; simp [compareBytes]
  · have hne : x.toNat ≠ y.toNat := fun e => h (BitVec.eq_of_toNat_eq e)
    by_cases hlt : x.toNat < y.toNat
    · simp [compareBytes, h, BitVec.ult, hlt, orderCode_of_lt hlt]
    · have hgt : y.toNat < x.toNat := by omega
      simp [compareBytes, h, BitVec.ult, hlt, orderCode_of_gt hgt]

/-- One more digit at the low end decides only between equal higher parts. -/
theorem orderCode_append_digit {m n x y : Nat} (hx : x < 256) (hy : y < 256) :
    orderCode (256 * m + x) (256 * n + y) = if orderCode m n = 0b00#2 then orderCode x y else orderCode m n := by
  rcases lt_trichotomy m n with h | rfl | h
  · rw [orderCode_of_lt h, orderCode_of_lt (by omega)]; rfl
  · simp [orderCode]
  · rw [orderCode_of_gt h, orderCode_of_gt (by omega)]; rfl

/-- Byte-serial comparison is comparison of the base-256 numerals, by induction on the low end. -/
theorem compareBytes_eq_orderCode (xs : List Byte) : ∀ ys : List Byte, xs.length = ys.length →
    compareBytes xs ys = orderCode (xs.foldl (fun n b => 256 * n + b.toNat) 0)
      (ys.foldl (fun n b => 256 * n + b.toNat) 0) := by
  induction xs using List.reverseRecOn with
  | nil =>
    intro ys h
    obtain rfl : ys = [] := List.length_eq_zero_iff.mp h.symm
    rfl
  | append_singleton xs x ih =>
    intro ys h
    obtain rfl | ⟨ys, y, rfl⟩ := ys.eq_nil_or_concat'
    · simp at h
    · have hlen : xs.length = ys.length := by simpa using h
      rw [compareBytes_snoc xs ys x y hlen, ih ys hlen, compareBytes_singleton]
      simp only [List.foldl_append, List.foldl_cons, List.foldl_nil]
      rw [orderCode_append_digit x.isLt y.isLt]

theorem compareBytes_idBytes (a b : Word) :
    compareBytes (idBytes a) (idBytes b) = orderCode a.toNat b.toNat := by
  rw [compareBytes_eq_orderCode _ _ ((idBytes_length a).trans (idBytes_length b).symm), foldl_idBytes, foldl_idBytes]

theorem exec_cmp (a b : Word) (s : State) :
    exec (.cmp a b) s = .next (respondResult ((orderCode a.toNat b.toNat).signExtend 128) 0x00#8 s) := by
  rw [← compareBytes_idBytes]; rfl

/-! ### The earliest differing byte decides the order of the values -/

/-- Numbers whose first `i` of 16 bytes agree have the same upper part: those bytes are its digits. -/
theorem div_eq_div_of_byteOf_eq {m n : Nat} (hm : m < 256 ^ 16) (hn : n < 256 ^ 16) {i : Nat} (hi : i ≤ 16)
    (h : ∀ j < i, byteOf m j = byteOf n j) : m / 256 ^ (16 - i) = n / 256 ^ (16 - i) := by
  have upper_lt : ∀ v, v < 256 ^ 16 → v / 256 ^ (16 - i) < 256 ^ i := fun v hv =>
    Nat.div_lt_of_lt_mul (by rwa [← pow_add, Nat.sub_add_cancel hi])
  have digits : (List.range i).map (byteOf m) = (List.range i).map (byteOf n) :=
    List.map_congr_left fun j hj => h j (List.mem_range.mp hj)
  calc m / 256 ^ (16 - i)
      = m / 256 ^ (16 - i) % 256 ^ i := (Nat.mod_eq_of_lt (upper_lt m hm)).symm
    _ = ((List.range i).map (byteOf m)).foldl (fun acc d => 256 * acc + d) 0 := (foldl_digits 256 16 m i hi).symm
    _ = ((List.range i).map (byteOf n)).foldl (fun acc d => 256 * acc + d) 0 := by rw [digits]
    _ = n / 256 ^ (16 - i) % 256 ^ i := foldl_digits 256 16 n i hi
    _ = n / 256 ^ (16 - i) := Nat.mod_eq_of_lt (upper_lt n hn)

theorem eq_of_byteOf_eq {m n : Nat} (hm : m < 256 ^ 16) (hn : n < 256 ^ 16)
    (h : ∀ i < 16, byteOf m i = byteOf n i) : m = n := by
  simpa using div_eq_div_of_byteOf_eq hm hn le_rfl h

theorem lt_of_byteOf_lt {m n : Nat} (hm : m < 256 ^ 16) (hn : n < 256 ^ 16) {i : Nat} (hi : i < 16)
    (agree : ∀ j < i, byteOf m j = byteOf n j) (hlt : byteOf m i < byteOf n i) : m < n := by
  have upper := div_eq_div_of_byteOf_eq hm hn hi.le agree
  rw [show 16 - i = 15 - i + 1 by omega, pow_succ, ← Nat.div_div_eq_div_mul, ← Nat.div_div_eq_div_mul] at upper
  simp only [byteOf] at hlt
  have hdiv : m / 256 ^ (15 - i) < n / 256 ^ (15 - i) := by omega
  exact lt_of_not_ge fun hle => hdiv.not_ge (Nat.div_le_div_right hle)

/-- Settles O18: CMP answers the order of the values, which the earliest differing byte decides. -/
theorem cmpEarliestDifferingByteDecides : Obligations.CmpEarliestDifferingByteDecides := by
  refine ⟨decode_of_cmp, fun a b s => ?_⟩
  refine ⟨_, exec_cmp a b s, signExtend_orderCode_of_lt, signExtend_orderCode_of_eq, signExtend_orderCode_of_gt,
    fun agree => ?equal, fun i hi agree => ⟨fun hlt => ?smaller, fun hgt => ?larger⟩⟩
  case equal => exact signExtend_orderCode_of_eq (eq_of_byteOf_eq a.isLt b.isLt agree)
  case smaller => exact signExtend_orderCode_of_lt (lt_of_byteOf_lt a.isLt b.isLt hi agree hlt)
  case larger =>
    exact signExtend_orderCode_of_gt (lt_of_byteOf_lt b.isLt a.isLt hi (fun j hj => (agree j hj).symm) hgt)

end Sys2Proof.Machine
end

section
/-! The constant tables ALPHABET and DECODE, entry by entry against the reference wording, and the two commands that
look one entry up, CENC and CDEC (spec/41_symbols.md R54, R55, R57 and R58). -/

namespace Sys2Proof.Machine

open Sys2Proof.Reference

/-! ### ALPHABET -/

theorem encodeSymbol_toNat (sym : Sym) : (encodeSymbol sym).toNat = charCode sym.toNat := by
  revert sym; decide

/-- Settles O10, by the 32 entries of the table. -/
theorem alphabetIsTheCrockfordString : Obligations.AlphabetIsTheCrockfordString :=
  encodeSymbol_toNat

/-! ### DECODE -/

/-- The table of 16 rows by 16 columns holds, for each byte, what its range gives. -/
theorem decodeChar_eq_ranges (c : Byte) :
    decodeChar c = ((symbolOf c.toNat).map symbolEntry).getD invalidEntry := by
  revert c; decide

/-- The reference's symbols fit the five bits of an entry. -/
theorem symbolValue_lt (c : Byte) : symbolValue c < 32 := by
  revert c; decide

theorem decodeChar_valid (c : Byte) : (decodeChar c).valid = hasSymbol c := by
  rw [decodeChar_eq_ranges, hasSymbol]
  cases symbolOf c.toNat with
  | none => rfl
  | some n => rfl

theorem decodeChar_sym_toNat (c : Byte) : (decodeChar c).sym.toNat = symbolValue c := by
  have fits := symbolValue_lt c
  rw [symbolValue] at fits
  rw [decodeChar_eq_ranges, symbolValue]
  cases h : symbolOf c.toNat with
  | none => rfl
  | some n => rw [h] at fits; exact Nat.mod_eq_of_lt fits

theorem length_filter_valid :
    ((List.range 256).filter fun c => (decodeChar (BitVec.ofNat 8 c)).valid).length = 62 := by
  decide

/-- Settles O11: each entry is that of the byte's range; the invalid bytes are the rest of the 256. -/
theorem decodeTableIsTheRangeTable : Obligations.DecodeTableIsTheRangeTable := by
  refine ⟨fun c => ⟨decodeChar_valid c, decodeChar_sym_toNat c⟩, length_filter_valid, ?_⟩
  have total := List.length_eq_length_filter_add (l := List.range 256) fun c => (decodeChar (BitVec.ofNat 8 c)).valid
  rw [List.length_range, length_filter_valid] at total
  omega

/-! ### The operands of CENC and CDEC -/

theorem decode_of_cenc (q : Request) (hq : q.cmd = 0x01#8) : decode q = .ok (.cenc (BitVec.ofNat 5 q.a.toNat)) := by
  simp only [decode, hq, BitVec.extractLsb', Nat.shiftRight_zero]

theorem decode_of_cdec (q : Request) (hq : q.cmd = 0x02#8) : decode q = .ok (.cdec (BitVec.ofNat 8 q.a.toNat)) := by
  simp only [decode, hq, BitVec.extractLsb', Nat.shiftRight_zero]

/-! ### The responses -/

theorem statusWord_invalidChar (bad : Bool) : statusWord { invalidChar := bad } = if bad then 0x04#8 else 0x00#8 := by
  revert bad; decide

theorem exec_cenc (sym : Sym) (s : State) :
    exec (.cenc sym) s = .next (respondResult (BitVec.ofNat 128 (charCode sym.toNat)) 0x00#8 s) := by
  rw [← encodeSymbol_toNat, BitVec.ofNat_toNat]; rfl

theorem exec_cdec (c : Byte) (s : State) :
    exec (.cdec c) s
      = .next (respondResult (BitVec.ofNat 128 (symbolValue c)) (if hasSymbol c then 0x00#8 else 0x04#8) s) := by
  have status : statusWord { invalidChar := !(decodeChar c).valid } = if hasSymbol c then 0x00#8 else 0x04#8 := by
    rw [statusWord_invalidChar, decodeChar_valid]
    cases hasSymbol c <;> rfl
  rw [← status, ← decodeChar_sym_toNat, BitVec.ofNat_toNat]; rfl

/-- Settles O13: CENC answers the ALPHABET entry of the symbol in A[4:0]. -/
theorem cencWritesTheCharacter : Obligations.CencWritesTheCharacter :=
  ⟨decode_of_cenc, exec_cenc⟩

/-- Settles O14: CDEC answers the DECODE entry of the byte in A[7:0], its valid bit in ST. -/
theorem cdecWritesTheSymbol : Obligations.CdecWritesTheSymbol :=
  ⟨decode_of_cdec, exec_cdec⟩

end Sys2Proof.Machine
end

section
/-! The formatter: the 26 five-bit groups of an identifier, as base-32 digits and as bits of its two fields, and FMT
(spec/42_format.md R59, R60 and R62). -/

namespace Sys2Proof.Machine

open Sys2Proof.Reference

/-! ### FMT writes the base-32 digits -/

theorem group_paddedView_toNat (v : Word) (k : Fin 26) :
    (group (paddedView v) k).toNat = v.toNat / 32 ^ (25 - k.val) % 32 := by
  rw [group_toNat, paddedView_toNat]

theorem encodeSymbol_eq_ofNat (sym : Sym) : encodeSymbol sym = BitVec.ofNat 8 (charCode sym.toNat) := by
  rw [← encodeSymbol_toNat, BitVec.ofNat_toNat, BitVec.setWidth_eq]

theorem formatText_eq_ofFn_charCode (v : Word) :
    formatText v = Vector.ofFn fun k : Fin 26 => BitVec.ofNat 8 (charCode (v.toNat / 32 ^ (25 - k.val) % 32)) := by
  simp only [formatText, encodeSymbol_eq_ofNat, group_paddedView_toNat]

theorem decode_of_fmt (q : Request) (hq : q.cmd = 0x04#8) : decode q = .ok (.fmt q.a) := by
  simp only [decode, hq]

theorem exec_fmt (v : Word) (s : State) : exec (.fmt v) s = .next (respondText (formatText v) s) := rfl

/-- Settles O23: the text FMT answers with is the ALPHABET entries of the base-32 digits of V. -/
theorem fmtWritesTheTwentySixCharacters : Obligations.FmtWritesTheTwentySixCharacters := by
  refine ⟨decode_of_fmt, fun v s => ?_⟩
  rw [exec_fmt, formatText_eq_ofFn_charCode, respondText]

/-! ### The groups are bits of the two fields -/

/-- `group_toNat` with the place value as a power of two, the bit position of R60. -/
theorem group_paddedView_toNat_bits (v : Word) (k : Fin 26) :
    (group (paddedView v) k).toNat = v.toNat / 2 ^ (125 - 5 * k.val) % 2 ^ 5 := by
  rw [group, BitVec.extractLsb'_toNat, Nat.shiftRight_eq_div_pow, paddedView_toNat]

/-- Of V only bits 125 to 127 reach group 0; the group's two high bits are padding. -/
theorem group_zero_le_seven (v : Word) : (group (paddedView v) 0).toNat ≤ 7 := by
  have bound := v.isLt
  have digit : (group (paddedView v) 0).toNat = v.toNat / 2 ^ 125 % 2 ^ 5 := group_paddedView_toNat_bits v 0
  omega

/-- The timestamp's groups come first: the place value of group `k < 10` of V is `2 ^ 80` times that of the same bits
in the timestamp. -/
theorem group_toNat_of_lt_ten (v : Word) (k : Fin 26) (hk : k.val < 10) :
    (group (paddedView v) k).toNat = (timestampOf v).toNat / 2 ^ (45 - 5 * k.val) % 2 ^ 5 := by
  have place : (2 : ℕ) ^ (125 - 5 * k.val) = 2 ^ 80 * 2 ^ (45 - 5 * k.val) := by
    rw [← pow_add]; congr 1; omega
  rw [group_paddedView_toNat_bits, place, ← Nat.div_div_eq_div_mul, timestampOf_toNat]

/-- The entropy's groups come last: the place values of groups 10 to 25 divide `2 ^ 80` with five bits to spare, so the
timestamp above does not reach them. -/
theorem group_toNat_of_ten_le (v : Word) (k : Fin 26) (hk : 10 ≤ k.val) :
    (group (paddedView v) k).toNat = (entropyOf v).toNat / 2 ^ (125 - 5 * k.val) % 2 ^ 5 := by
  have place : (2 : ℕ) ^ 80 = 2 ^ (125 - 5 * k.val) * 2 ^ (5 * k.val - 45) := by
    rw [← pow_add]; congr 1; omega
  have spare : (2 : ℕ) ^ 5 ∣ 2 ^ (5 * k.val - 45) := pow_dvd_pow 2 (by omega)
  rw [group_paddedView_toNat_bits, entropyOf_toNat, place, Nat.mod_mul_right_div_self, Nat.mod_mod_of_dvd _ spare]

/-- Settles O24: the padding adds nothing to V's value, and bit 80, where its fields meet, is where groups 9 and 10 meet. -/
theorem groupsSplitTimestampAndEntropy : Obligations.GroupsSplitTimestampAndEntropy := fun v =>
  ⟨paddedView_toNat v, group_zero_le_seven v, group_paddedView_toNat_bits v, group_toNat_of_lt_ten v,
    group_toNat_of_ten_le v⟩

end Sys2Proof.Machine
end

section
/-! The parser: what DECODE, the flags and reassembly give for a character string, in the reference's words, and the
responses of PARSE and PARSE.LAX (spec/43_parse.md R65 to R71). -/

namespace Sys2Proof.Machine

open Sys2Proof.Reference

/-! ### The groups of a concatenation -/

theorem group_concatSymbols (ds : List Sym) (h : ds.length = 26) (k : Fin 26) :
    group (concatSymbols ds) k = ds[k.val]'(by omega) := by
  apply BitVec.eq_of_toNat_eq
  rw [group_toNat, concatSymbols_toNat ds h.le, ← foldl_symbols_digit ds k.val (by omega), h]

/-- Settles O28: base-32 reading is undone by its digits, and the identifier is the low part of the value read. -/
theorem reassemblyIsTheInverseOfSlicing : Obligations.ReassemblyIsTheInverseOfSlicing :=
  fun ds h => ⟨group_concatSymbols ds h, reassemble_toNat ds⟩

/-! ### The symbols and flags of a character string -/

theorem decodedSymbols_map_toNat (cin : List Byte) :
    (decodedSymbols cin).map BitVec.toNat = (cin.take 26).map symbolValue := by
  rw [decodedSymbols, decodedEntries, List.map_map, List.map_map]
  exact List.map_congr_left fun c _ => decodeChar_sym_toNat c

theorem concatSymbols_decodedSymbols_toNat (cin : List Byte) :
    (concatSymbols (decodedSymbols cin)).toNat = base32Value (cin.take 26) := by
  have atMost26 : (decodedSymbols cin).length ≤ 26 := (decodedSymbols_length cin).trans_le (min_le_left ..)
  calc (concatSymbols (decodedSymbols cin)).toNat
      = (decodedSymbols cin).foldl (fun n d => 32 * n + d.toNat) 0 := concatSymbols_toNat _ atMost26
    _ = ((decodedSymbols cin).map BitVec.toNat).foldl (fun n d => 32 * n + d) 0 := by rw [List.foldl_map]
    _ = ((cin.take 26).map symbolValue).foldl (fun n d => 32 * n + d) 0 := by rw [decodedSymbols_map_toNat]
    _ = base32Value (cin.take 26) := by rw [List.foldl_map, base32Value]

theorem reassemble_decodedSymbols (cin : List Byte) :
    reassemble (decodedSymbols cin) = BitVec.ofNat 128 (base32Value (cin.take 26)) := by
  apply BitVec.eq_of_toNat_eq
  rw [reassemble_toNat, concatSymbols_decodedSymbols_toNat, BitVec.toNat_ofNat]

theorem anyInvalid_eq_true_iff (cin : List Byte) :
    anyInvalid cin = true ↔ ∃ c ∈ cin.take 26, hasSymbol c = false := by
  simp only [anyInvalid, decodedEntries, List.any_map, List.any_eq_true, Function.comp_apply, decodeChar_valid,
    Bool.not_eq_true']

theorem anyInvalid_eq_false_iff (cin : List Byte) :
    anyInvalid cin = false ↔ ∀ c ∈ cin.take 26, hasSymbol c = true := by
  rw [← Bool.not_eq_true, anyInvalid_eq_true_iff]
  simp only [not_exists, not_and, Bool.not_eq_false]

theorem firstSymbolTop_eq_firstIsTop (cin : List Byte) : firstSymbolTop cin = firstIsTop cin := by
  cases cin with
  | nil => rfl
  | cons c cs =>
    have first : firstSymbolTop (c :: cs) = decide (8 ≤ (decodeChar c).sym.toNat) := rfl
    rw [first, decodeChar_sym_toNat, firstIsTop]

/-! ### PARSE -/

theorem decode_of_parse (q : Request) (hq : q.cmd = 0x05#8) : decode q = .ok (.parse q.cin) := by
  simp only [decode, hq]

theorem statusWord_topBits (top : Bool) : statusWord { topBits := top } = if top then 0x10#8 else 0x00#8 := by
  revert top; decide

theorem exec_parse_of_length_ne {cin : List Byte} (hlen : cin.length ≠ 26) (s : State) :
    exec (.parse cin) s = .next (raiseError .wrongLength s) :=
  if_pos hlen

theorem exec_parse_of_anyInvalid {cin : List Byte} (hlen : cin.length = 26) (bad : anyInvalid cin = true) (s : State) :
    exec (.parse cin) s = .next (raiseError .invalidCharacter s) :=
  (if_neg (not_not_intro hlen)).trans (if_pos bad)

theorem exec_parse_of_valid {cin : List Byte} (hlen : cin.length = 26) (good : anyInvalid cin = false) (s : State) :
    exec (.parse cin) s
      = .next (respondResult (BitVec.ofNat 128 (base32Value cin)) (if firstIsTop cin then 0x10#8 else 0x00#8) s) := by
  have whole : cin.take 26 = cin := List.take_of_length_le hlen.le
  have value : reassemble (decodedSymbols cin) = BitVec.ofNat 128 (base32Value cin) := by
    rw [reassemble_decodedSymbols, whole]
  rw [← value, ← statusWord_topBits, ← firstSymbolTop_eq_firstIsTop]
  exact (if_neg (not_not_intro hlen)).trans (if_neg (Bool.eq_false_iff.mp good))

/-- Settles O30: of 26 bytes all are decoded, so the parser's flag speaks of every byte of CIN. -/
theorem parseIsStrict : Obligations.ParseIsStrict := by
  refine ⟨decode_of_parse, fun cin s => ?_⟩
  have whole : cin.length = 26 → cin.take 26 = cin := fun hlen => List.take_of_length_le hlen.le
  refine ⟨fun hlen => exec_parse_of_length_ne hlen s, fun hlen bad => ?invalidCharacter, fun hlen good => ?accepted⟩
  case invalidCharacter =>
    have flag : anyInvalid cin = true := by rwa [anyInvalid_eq_true_iff, whole hlen]
    exact exec_parse_of_anyInvalid hlen flag s
  case accepted =>
    have flag : anyInvalid cin = false := by rwa [anyInvalid_eq_false_iff, whole hlen]
    exact exec_parse_of_valid hlen flag s

/-! ### PARSE.LAX -/

theorem decode_of_parseLax (q : Request) (hq : q.cmd = 0x15#8) : decode q = .ok (.parseLax q.cin) := by
  simp only [decode, hq]

theorem statusWord_report_toNat (top wrong bad : Bool) :
    (statusWord { topBits := top, wrongLength := wrong, invalidChar := bad }).toNat
      = (if top then 16 else 0) + (if wrong then 8 else 0) + (if bad then 4 else 0) := by
  revert top wrong bad; decide

theorem laxStatus_toNat (cin : List Byte) :
    (laxStatus cin).toNat = (if firstIsTop cin then 16 else 0) + (if cin.length = 26 then 0 else 8)
      + (if ∀ c ∈ cin.take 26, hasSymbol c = true then 0 else 4) := by
  rw [laxStatus, statusWord_report_toNat, firstSymbolTop_eq_firstIsTop]
  simp only [← anyInvalid_eq_false_iff, bne_iff_ne, ite_not]
  cases anyInvalid cin <;> rfl

theorem exec_parseLax_of_long {cin : List Byte} (hlen : 26 ≤ cin.length) (s : State) :
    exec (.parseLax cin) s
      = .next (respondResult (BitVec.ofNat 128 (base32Value (cin.take 26))) (laxStatus cin) s) := by
  rw [← reassemble_decodedSymbols]
  exact if_pos hlen

theorem exec_parseLax_of_short {cin : List Byte} (hlen : cin.length < 26) (s : State) :
    exec (.parseLax cin) s = .next (respondDraw cin (laxStatus cin) s) :=
  if_neg hlen.not_ge

/-- Settles O31: both responses report in the one status; the short one's value is the draw. -/
theorem parseLaxReportsAndRejectsNothing : Obligations.ParseLaxReportsAndRejectsNothing :=
  ⟨decode_of_parseLax, fun cin s => ⟨laxStatus cin, laxStatus_toNat cin, fun hlen => exec_parseLax_of_long hlen s,
    fun hlen => ⟨Config.laxShortFill s.draws cin, s.draws + 1, exec_parseLax_of_short hlen s⟩⟩⟩

end Sys2Proof.Machine
end

section
/-! The error response and its three codes, the conditions that are reported in ST and raise no error, and which request
raises which error (spec/60_exceptions.md R75, R76, R80 and R81). -/

namespace Sys2Proof.Machine

open Sys2Proof.Reference

/-! ### The error codes -/

@[simp] theorem stErr_errorCode (e : CodecError) : stErr (errorCode e) = true := by
  rw [errorCode_eq_statusWord, stErr_statusWord]

@[simp] theorem stTopBits_errorCode (e : CodecError) : stTopBits (errorCode e) = false := by
  rw [errorCode_eq_statusWord, stTopBits_statusWord]

theorem count_causeBits_errorCode (e : CodecError) :
    [stIllegalCmd (errorCode e), stInvalidChar (errorCode e), stWrongLength (errorCode e)].count true = 1 := by
  cases e <;> rfl

/-- Settles O35: the code is `errorCode e`, and the response to an error writes nothing but it and COUT_LEN. -/
theorem errorResponseWritesCodeOnly : Obligations.ErrorResponseWritesCodeOnly := fun e s =>
  ⟨errorCode e, raiseError_eq_respond e s, congrArg errorCode, congrArg errorCode, congrArg errorCode,
    stErr_errorCode e, count_causeBits_errorCode e, stTopBits_errorCode e⟩

/-! ### What PARSE.LAX reports -/

@[simp] theorem stErr_laxStatus (cin : List Byte) : stErr (laxStatus cin) = false := by
  rw [laxStatus, stErr_statusWord]

theorem stInvalidChar_laxStatus (cin : List Byte) :
    stInvalidChar (laxStatus cin) = true ↔ ∃ c ∈ cin.take 26, hasSymbol c = false := by
  rw [laxStatus, stInvalidChar_statusWord, anyInvalid_eq_true_iff]

theorem stWrongLength_laxStatus (cin : List Byte) : stWrongLength (laxStatus cin) = true ↔ cin.length ≠ 26 := by
  rw [laxStatus, stWrongLength_statusWord, bne_iff_ne]

theorem stTopBits_laxStatus (cin : List Byte) : stTopBits (laxStatus cin) = firstIsTop cin := by
  rw [laxStatus, stTopBits_statusWord, firstSymbolTop_eq_firstIsTop]

/-- What the responses to a long and to a short CIN have in common. -/
theorem exec_parseLax_answer (cin : List Byte) (s : State) :
    ∃ t, exec (.parseLax cin) s = .next t ∧ t.st = laxStatus cin
      ∧ (26 ≤ cin.length → t.r = BitVec.ofNat 128 (base32Value (cin.take 26))) := by
  by_cases hlen : 26 ≤ cin.length
  · exact ⟨_, exec_parseLax_of_long hlen s, respondResult_st .., fun _ => respondResult_r ..⟩
  · exact ⟨_, exec_parseLax_of_short (not_le.mp hlen) s, respondDraw_st .., fun long => absurd long hlen⟩

/-! ### Conditions that are no errors -/

theorem symbolValue_of_not_hasSymbol {c : Byte} (bad : hasSymbol c = false) : symbolValue c = 0 := by
  have noSymbol : symbolOf c.toNat = none := Option.not_isSome_iff_eq_none.mp (Bool.eq_false_iff.mp bad)
  rw [symbolValue, noSymbol, Option.getD_none]

theorem packIdentifier_truncated_toNat (ms : BitVec 64) (ent : BitVec 80) :
    (packIdentifier (ms.extractLsb' 0 48) ent).toNat = ms.toNat % 2 ^ 48 * 2 ^ 80 + ent.toNat := by
  rw [packIdentifier_toNat, BitVec.extractLsb'_toNat, Nat.shiftRight_zero]

/-- Settles O36, row by row of R80's table, each by the response of its command. -/
theorem reportedConditionsAreNotErrors : Obligations.ReportedConditionsAreNotErrors := by
  refine fun s => ⟨fun c bad => ?cdec, fun cin => ?parseLax, fun cin hlen good top => ?parse, fun ms ent _ => ?pack⟩
  case cdec =>
    rw [exec_cdec, symbolValue_of_not_hasSymbol bad, bad]
    rfl
  case parseLax =>
    obtain ⟨t, answer, status, value⟩ := exec_parseLax_answer cin s
    refine ⟨t, answer, ?_⟩
    rw [status, stInvalidChar_laxStatus, stWrongLength_laxStatus, stTopBits_laxStatus]
    exact ⟨stErr_laxStatus cin, Iff.rfl, Iff.rfl, Iff.rfl, value⟩
  case parse =>
    obtain ⟨-, -, accepted⟩ := parseIsStrict.2 cin s
    refine ⟨_, ?_, BitVec.toNat_ofNat ..⟩
    rw [accepted hlen good, if_pos top]
  case pack => exact ⟨_, exec_pack ms ent s, packIdentifier_truncated_toNat ms ent⟩

/-! ### Which request raises an error -/

theorem execute_of_decode {q : Request} {i : Instr} (hd : decode q = .ok i) (s : State) : execute q s = exec i s := by
  rw [execute, hd]

theorem execute_of_not_mem_commandWords {q : Request} (hq : q.cmd ∉ commandWords) (s : State) :
    execute q s = .next (raiseError .illegalCommand s) := by
  have rejected : decode q = .error .illegalCommand :=
    (decode_cases q).resolve_left fun hd => hq ((exists_decode_iff_mem_commandWords q).mp hd)
  rw [execute, rejected]

/-- The one error of `execute_cases` that a legal command word allows is PARSE's. -/
theorem execute_stErr_of_not_parse {q : Request} {s t : State} (legal : q.cmd ∈ commandWords) (hq : q.cmd ≠ 0x05#8)
    (h : execute q s = .next t) : stErr t.st = false := by
  rcases execute_cases q with ⟨r, b, noErr, -, -, -, result⟩ | ⟨b, noErr, -, -, -, draw⟩ | ⟨-, text⟩ | ⟨e, cause, -⟩
  · cases (result s).symm.trans h
    rwa [respondResult_st, stErr_statusWord]
  · cases (draw s).symm.trans h
    rwa [respondDraw_st, stErr_statusWord]
  · cases (text s).symm.trans h
    rw [respondText_st]
    decide
  · obtain ⟨i, hd⟩ := exists_decode_of_mem_commandWords q legal
    rcases cause with ⟨rejected, -⟩ | ⟨parse, -⟩
    · cases hd.symm.trans rejected
    · exact absurd parse hq

theorem exec_parse_stErr {cin : List Byte} {s t : State} (h : exec (.parse cin) s = .next t) :
    stErr t.st = true ↔ cin.length ≠ 26 ∨ ∃ c ∈ cin, hasSymbol c = false := by
  by_cases hlen : cin.length = 26
  · have flag : anyInvalid cin = true ↔ ∃ c ∈ cin, hasSymbol c = false := by
      rw [anyInvalid_eq_true_iff, List.take_of_length_le hlen.le]
    rw [← flag, or_iff_right (not_not_intro hlen)]
    cases bad : anyInvalid cin with
    | true =>
      cases (exec_parse_of_anyInvalid hlen bad s).symm.trans h
      exact iff_of_true (stErr_errorCode _) rfl
    | false =>
      cases (exec_parse_of_valid hlen bad s).symm.trans h
      rw [respondResult_st, ← statusWord_topBits, stErr_statusWord]
  · cases (exec_parse_of_length_ne hlen s).symm.trans h
    exact iff_of_true (stErr_errorCode _) (.inl hlen)

theorem execute_stErr {q : Request} {s t : State} (h : execute q s = .next t) :
    stErr t.st = true ↔ q.cmd ∉ commandWords
      ∨ (q.cmd = 0x05#8 ∧ (q.cin.length ≠ 26 ∨ ∃ c ∈ q.cin, hasSymbol c = false)) := by
  by_cases legal : q.cmd ∈ commandWords
  · by_cases parse : q.cmd = 0x05#8
    · rw [execute_of_decode (decode_of_parse q parse)] at h
      rw [exec_parse_stErr h, or_iff_right (not_not_intro legal), and_iff_right parse]
    · have noErr : stErr t.st ≠ true := Bool.eq_false_iff.mp (execute_stErr_of_not_parse legal parse h)
      exact iff_of_false noErr (not_or_intro (not_not_intro legal) fun cause => parse cause.1)
  · cases (execute_of_not_mem_commandWords legal s).symm.trans h
    exact iff_of_true (stErr_errorCode _) (.inl legal)

/-- `8#`: too short, its first symbol 8, its second byte invalid. -/
def threeConditions : List Byte := [0x38#8, 0x23#8]

/-- Settles O37: each error has its own cause, and `8#` shows PARSE.LAX reporting all three conditions. -/
theorem atMostOneErrorInOrder : Obligations.AtMostOneErrorInOrder := by
  refine ⟨fun q s t h => ⟨execute_stErr h, fun illegal => ?illegalCommand, fun parse hlen => ?wrongLength,
    fun parse hlen bad => ?invalidCharacter⟩, threeConditions, fun s => ?parseLax⟩
  case illegalCommand =>
    cases (execute_of_not_mem_commandWords illegal s).symm.trans h
    rfl
  case wrongLength =>
    rw [execute_of_decode (decode_of_parse q parse)] at h
    cases (exec_parse_of_length_ne hlen s).symm.trans h
    rfl
  case invalidCharacter =>
    rw [execute_of_decode (decode_of_parse q parse)] at h
    obtain ⟨-, rejected, -⟩ := parseIsStrict.2 q.cin s
    cases (rejected hlen bad).symm.trans h
    rfl
  case parseLax =>
    obtain ⟨t, answer, status, -⟩ := exec_parseLax_answer threeConditions s
    refine ⟨t, answer, ?_⟩
    rw [status, stTopBits_laxStatus, stWrongLength_laxStatus, stInvalidChar_laxStatus]
    exact ⟨stErr_laxStatus _, by decide⟩

end Sys2Proof.Machine
end

section
/-! Decoding and encoding are inverse on what a command reads, and R42's formula picks out the eight words
(spec/30_encoding.md R40 to R43 and R48). -/

namespace Sys2Proof.Machine

open Sys2Proof.Reference

/-! ### Decoding an encoding -/

@[simp] theorem encode_a (i : Instr) : (encode i).a = operandA i := rfl
@[simp] theorem encode_b (i : Instr) : (encode i).b = operandB i := rfl

theorem ofNat_toNat_setWidth {w : Nat} (x : BitVec w) (fits : w ≤ 128) : BitVec.ofNat w (x.setWidth 128).toNat = x := by
  rw [BitVec.ofNat_toNat, BitVec.setWidth_setWidth_of_le x fits, BitVec.setWidth_eq]

/-- Each operand is placed at the low end of a 128-bit word, and read back from there. -/
theorem decode_encode (i : Instr) : decode (encode i) = .ok i := by
  cases i with
  | cenc sym => rw [decode_of_cenc _ rfl, encode_a, operandA, ofNat_toNat_setWidth sym (by decide)]
  | cdec c => rw [decode_of_cdec _ rfl, encode_a, operandA, ofNat_toNat_setWidth c (by decide)]
  | pack ms ent =>
    rw [decode_of_pack _ rfl, encode_a, encode_b, operandA, operandB, ofNat_toNat_setWidth ms (by decide),
      ofNat_toNat_setWidth ent (by decide)]
  | fmt v => exact decode_of_fmt (encode (.fmt v)) rfl
  | parse cin => exact decode_of_parse (encode (.parse cin)) rfl
  | parseLax cin => exact decode_of_parseLax (encode (.parseLax cin)) rfl
  | xts v => exact decode_of_xts (encode (.xts v)) rfl
  | cmp a b => exact decode_of_cmp (encode (.cmp a b)) rfl

theorem legalCommand_iff_mem_commandWords (w : BitVec 8) : legalCommand w = true ↔ w ∈ commandWords := by
  revert w; decide

theorem awaitsStream_of_decode {q : Request} {i : Instr} (hd : decode q = .ok i) :
    awaitsStream q = (readsStream i && !q.ended) := by
  rw [awaitsStream, hd]

theorem encode_wellFormed (i : Instr) : (encode i).wellFormed = true := by
  have legal : legalCommand (commandWord i) = true :=
    (legalCommand_iff_mem_commandWords _).mpr (commandWord_mem_commandWords i)
  rw [Request.wellFormed, Bool.and_eq_true]
  exact ⟨legal, rfl⟩

/-- Settles O4: operands read back as placed, the word is one of the eight, and the encoder ends CIN. -/
theorem decodeOfEncodeIsIdentity : Obligations.DecodeOfEncodeIsIdentity := by
  refine fun i => ⟨decode_encode i, encode_wellFormed i, ?_⟩
  rw [awaitsStream_of_decode (decode_encode i)]
  exact Bool.and_false _

/-! ### Encoding what was decoded -/

/-- Each clause of R43 fixes the command, and with it the instruction; its encoding then places what was read. -/
theorem readsSame_encode_of_decode {q : Request} {i : Instr} (hd : decode q = .ok i) : ReadsSame q (encode i) := by
  refine ⟨fun hq => ?cenc, fun hq => ?cdec, fun hq => ?pack, fun hq => ?wholeA, fun hq => ?stream, fun hq => ?cmp⟩
  case cenc =>
    cases (decode_of_cenc q hq).symm.trans hd
    simp [operandA]
  case cdec =>
    cases (decode_of_cdec q hq).symm.trans hd
    simp [operandA]
  case pack =>
    cases (decode_of_pack q hq).symm.trans hd
    simp [operandA, operandB]
  case wholeA =>
    rcases hq with hq | hq
    · cases (decode_of_fmt q hq).symm.trans hd
      rfl
    · cases (decode_of_xts q hq).symm.trans hd
      rfl
  case stream =>
    rcases hq with hq | hq
    · cases (decode_of_parse q hq).symm.trans hd
      rfl
    · cases (decode_of_parseLax q hq).symm.trans hd
      rfl
  case cmp =>
    cases (decode_of_cmp q hq).symm.trans hd
    exact ⟨rfl, rfl⟩

/-- Settles O5: the instruction carries the request's command word, and its operands are the bits that word reads. -/
theorem encodeOfDecodeKeepsWhatIsRead : Obligations.EncodeOfDecodeKeepsWhatIsRead :=
  fun q i hd => ⟨commandWord_of_decode q i hd, readsSame_encode_of_decode hd⟩

/-! ### Illegal command words -/

theorem decode_of_not_mem_commandWords {q : Request} (hq : q.cmd ∉ commandWords) :
    decode q = .error .illegalCommand :=
  (decode_cases q).resolve_left fun hd => hq ((exists_decode_iff_mem_commandWords q).mp hd)

theorem awaitsStream_of_not_mem_commandWords {q : Request} (hq : q.cmd ∉ commandWords) : awaitsStream q = false := by
  rw [awaitsStream, decode_of_not_mem_commandWords hq]

theorem length_filter_illegal :
    ((List.range 256).filter fun w => !legalCommand (BitVec.ofNat 8 w)).length = 248 := by
  have eight : ((List.range 256).filter fun w => legalCommand (BitVec.ofNat 8 w)).length = 8 := by decide
  have total := List.length_eq_length_filter_add (l := List.range 256) fun w => legalCommand (BitVec.ofNat 8 w)
  rw [List.length_range, eight] at total
  omega

/-- Settles O2: R42's formula, word by word, says that the word is one of the eight. -/
theorem legalityFormulaIsTheEightWords : Obligations.LegalityFormulaIsTheEightWords := by
  refine ⟨fun q => ?legal, fun q s hq => ?illegal, length_filter_illegal⟩
  case legal => rw [legalCommand_iff_mem_commandWords, exists_decode_iff_mem_commandWords]
  case illegal =>
    have notWord : q.cmd ∉ commandWords := by
      rw [← legalCommand_iff_mem_commandWords, hq]
      exact Bool.false_ne_true
    exact ⟨awaitsStream_of_not_mem_commandWords notWord, execute_of_not_mem_commandWords notWord s⟩

/-- Settles O6, by the ten words. -/
theorem writtenOutWordsDecode : Obligations.WrittenOutWordsDecode := by
  unfold Obligations.WrittenOutWordsDecode
  decide

/-! ### Bits that a command does not read -/

theorem ofNat_eq_ofNat_of_mod_eq {m n w : Nat} (h : m % 2 ^ w = n % 2 ^ w) : BitVec.ofNat w m = BitVec.ofNat w n :=
  BitVec.eq_of_toNat_eq (by simpa only [BitVec.toNat_ofNat] using h)

/-- The decoder looks at the bits R43 lists and at no others. -/
theorem decode_eq_of_readsSame {p q : Request} (hcmd : p.cmd = q.cmd) (same : ReadsSame p q) : decode p = decode q := by
  obtain ⟨cenc, cdec, pack, wholeA, stream, cmp⟩ := same
  by_cases legal : p.cmd ∈ commandWords
  · have word := legal
    simp only [commandWords, List.mem_cons, List.not_mem_nil, or_false] at word
    rcases word with hp | hp | hp | hp | hp | hp | hp | hp
    · rw [decode_of_cenc p hp, decode_of_cenc q (hcmd ▸ hp), ofNat_eq_ofNat_of_mod_eq (cenc hp)]
    · rw [decode_of_cdec p hp, decode_of_cdec q (hcmd ▸ hp), ofNat_eq_ofNat_of_mod_eq (cdec hp)]
    · obtain ⟨ms, ent⟩ := pack hp
      rw [decode_of_pack p hp, decode_of_pack q (hcmd ▸ hp), ofNat_eq_ofNat_of_mod_eq ms, ofNat_eq_ofNat_of_mod_eq ent]
    · rw [decode_of_fmt p hp, decode_of_fmt q (hcmd ▸ hp), wholeA (.inl hp)]
    · rw [decode_of_parse p hp, decode_of_parse q (hcmd ▸ hp), stream (.inl hp)]
    · rw [decode_of_parseLax p hp, decode_of_parseLax q (hcmd ▸ hp), stream (.inr hp)]
    · rw [decode_of_xts p hp, decode_of_xts q (hcmd ▸ hp), wholeA (.inr hp)]
    · obtain ⟨a, b⟩ := cmp hp
      rw [decode_of_cmp p hp, decode_of_cmp q (hcmd ▸ hp), a, b]
  · rw [decode_of_not_mem_commandWords legal, decode_of_not_mem_commandWords (hcmd ▸ legal)]

theorem exec_pack_truncated (ms : BitVec 64) (ent : BitVec 80) (s : State) :
    exec (.pack ms ent) s = exec (.pack (BitVec.ofNat 64 (ms.toNat % 2 ^ 48)) ent) s := by
  have kept : (BitVec.ofNat 64 (ms.toNat % 2 ^ 48)).toNat % 2 ^ 48 = ms.toNat % 2 ^ 48 := by
    rw [BitVec.toNat_ofNat]; omega
  rw [exec_pack, exec_pack, packIdentifier_truncated_eq_ofNat, packIdentifier_truncated_eq_ofNat, kept]

/-- Settles O3: requests that agree on what is read decode alike, and only the decoded instruction is run. -/
theorem operandBitsAreTheListedOnes : Obligations.OperandBitsAreTheListedOnes := by
  refine ⟨fun q => ⟨decode_of_cenc q, decode_of_cdec q, decode_of_pack q, decode_of_fmt q, decode_of_parse q,
    decode_of_parseLax q, decode_of_xts q, decode_of_cmp q⟩, exec_pack_truncated, fun p q s hcmd same => ?_⟩
  have decodesAlike := decode_eq_of_readsSame hcmd same
  refine ⟨?_, fun ended => ?_⟩
  · rw [execute, execute, decodesAlike]
  · rw [awaitsStream, awaitsStream, decodesAlike, ended]

end Sys2Proof.Machine
end

section
/-! What the response to a request depends on and what it leaves alone: the interface, R, ST, and the registers as a
whole (spec/10_state.md R16 and R19 to R21, spec/60_exceptions.md R74). Each statement is read off the four responses
of `exec_cases` and `execute_cases`. -/

namespace Sys2Proof.Machine

open Sys2Proof.Reference

/-! ### Every command completes -/

/-- Only PARSE.LAX of fewer than 26 bytes draws the open value. -/
theorem exec_draws_of_not_short_parseLax {i : Instr} (long : ¬ ∃ cin, i = .parseLax cin ∧ cin.length < 26) (s : State) :
    ∃ t, exec i s = .next t ∧ t.outstanding = s.outstanding ∧ t.inbox = s.inbox ∧ t.draws = s.draws := by
  rcases exec_cases i with ⟨r, b, -, -, -, result⟩ | ⟨cin, b, -, -, lax, short, -⟩ | ⟨v, -, text⟩ | ⟨cin, e, -, -, error⟩
  · exact ⟨_, result s, rfl, rfl, rfl⟩
  · exact absurd ⟨cin, lax, short⟩ long
  · exact ⟨_, text s, rfl, rfl, rfl⟩
  · exact ⟨_, error s, rfl, rfl, rfl⟩

/-- Settles O9, by whether the instruction draws. -/
theorem everyCommandCompletes : Obligations.EveryCommandCompletes := by
  intro i s
  by_cases short : ∃ cin, i = .parseLax cin ∧ cin.length < 26
  · obtain ⟨cin, rfl, hlen⟩ := short
    exact ⟨_, exec_parseLax_of_short hlen s, respondDraw_outstanding .., respondDraw_inbox ..,
      fun _ => respondDraw_draws .., fun long => absurd ⟨cin, rfl, hlen⟩ long⟩
  · obtain ⟨t, answer, outstanding, inbox, draws⟩ := exec_draws_of_not_short_parseLax short s
    exact ⟨t, answer, outstanding, inbox, fun h => absurd h short, fun _ => draws⟩

/-! ### The result register -/

/-- Settles O38: the responses that write R replace it, so that R before is not in them; the other two keep it. -/
theorem resultRegisterIsWrittenInFull : Obligations.ResultRegisterIsWrittenInFull := by
  intro q s t h
  rcases execute_cases q with ⟨r, b, noErr, -, -, notFmt, result⟩ | ⟨b, noErr, -, lax, -, draw⟩ | ⟨fmt, text⟩ |
    ⟨e, -, error⟩
  · cases (result s).symm.trans h
    refine ⟨fun kept => ?_, fun _ old => result _⟩
    rw [respondResult_st, stErr_statusWord, noErr] at kept
    exact absurd kept (not_or_intro notFmt Bool.false_ne_true)
  · cases (draw s).symm.trans h
    refine ⟨fun kept => ?_, fun _ old => draw _⟩
    rw [respondDraw_st, stErr_statusWord, noErr, lax] at kept
    exact absurd kept (by decide)
  · cases (text s).symm.trans h
    exact ⟨fun _ => respondText_r .., fun written => absurd (.inl fmt) written⟩
  · cases (error s).symm.trans h
    exact ⟨fun _ => raiseError_r .., fun written => absurd (.inr (stErr_errorCode e)) written⟩

/-! ### The status register -/

/-- Without ERR and ILLEGAL_CMD the other three bits of ST are free. -/
theorem statusWord_mem_possibleStatus {b : StatusBits} (noErr : b.err = false) (legal : b.illegalCmd = false) :
    statusWord b ∈ possibleStatus := by
  obtain ⟨err, illegalCmd, invalidChar, wrongLength, topBits⟩ := b
  subst noErr legal
  revert invalidChar wrongLength topBits
  decide

theorem errorCode_mem_possibleStatus (e : CodecError) : errorCode e ∈ possibleStatus := by
  cases e <;> decide

/-- A request has one status, whatever the state. -/
theorem execute_status (q : Request) : ∃ st ∈ possibleStatus, ∀ s t, execute q s = .next t → t.st = st := by
  rcases execute_cases q with ⟨r, b, noErr, legal, -, -, result⟩ | ⟨b, noErr, legal, -, -, draw⟩ | ⟨-, text⟩ |
    ⟨e, -, error⟩
  · refine ⟨_, statusWord_mem_possibleStatus noErr legal, fun s t h => ?_⟩
    cases (result s).symm.trans h
    exact respondResult_st ..
  · refine ⟨_, statusWord_mem_possibleStatus noErr legal, fun s t h => ?_⟩
    cases (draw s).symm.trans h
    exact respondDraw_st ..
  · refine ⟨0x00#8, by decide, fun s t h => ?_⟩
    cases (text s).symm.trans h
    exact respondText_st ..
  · refine ⟨_, errorCode_mem_possibleStatus e, fun s t h => ?_⟩
    cases (error s).symm.trans h
    exact raiseError_st ..

theorem stReserved_of_mem_possibleStatus : ∀ st ∈ possibleStatus, stReserved st = 0b000#3 := by
  decide

theorem step_of_idle_issue {s : State} {q : Request} {rest : List HostAction} (idle : s.outstanding = none)
    (next : s.inbox = .issue q :: rest) : step s = .next (accept q s) := by
  simp only [step, turn, idle, next]

/-- Settles O39: the status is the request's own, and accepting writes none of the registers. -/
theorem statusIsNeverSticky : Obligations.StatusIsNeverSticky := by
  refine ⟨fun q s s' t t' h h' => ?status, fun s t q idle next h => ?accept⟩
  case status =>
    obtain ⟨st, possible, status⟩ := execute_status q
    rw [status s t h, status s' t' h']
    exact ⟨rfl, possible, stReserved_of_mem_possibleStatus st possible⟩
  case accept =>
    obtain ⟨rest, inbox⟩ := List.head?_eq_some_iff.mp next
    cases (step_of_idle_issue idle inbox).symm.trans h
    exact ⟨accept_outstanding .., rfl⟩

/-! ### No hidden state -/

/-- Settles O41: COUT is kept or the text of A, R is kept or a value of the request, and ST and COUT_LEN are the
request's own. -/
theorem noHiddenState : Obligations.NoHiddenState := by
  intro q s s' t t' hr hcout h h'
  rcases execute_cases q with ⟨r, b, -, -, -, -, result⟩ | ⟨b, -, -, lax, short, draw⟩ | ⟨-, text⟩ | ⟨e, -, error⟩
  · cases (result s).symm.trans h
    cases (result s').symm.trans h'
    exact ⟨rfl, hcout, rfl, fun _ => rfl⟩
  · cases (draw s).symm.trans h
    cases (draw s').symm.trans h'
    exact ⟨rfl, hcout, rfl, fun long => absurd ⟨lax, short⟩ long⟩
  · cases (text s).symm.trans h
    cases (text s').symm.trans h'
    exact ⟨rfl, rfl, rfl, fun _ => hr⟩
  · cases (error s).symm.trans h
    cases (error s').symm.trans h'
    exact ⟨rfl, hcout, rfl, fun _ => hr⟩

end Sys2Proof.Machine
end

section
/-! One step of the machine, host and core taking turns, one lemma per turn: the idle core, the answer, the wait for CIN,
the refusal and reset (spec/70_reset_and_hazards.md R88 to R93, spec/60_exceptions.md R77 and R87). -/

namespace Sys2Proof.Machine

open Sys2Proof.Reference

/-! ### The idle core -/

theorem step_of_idle_silent {s : State} (idle : s.outstanding = none) (silent : s.inbox = []) : step s = .next s := by
  simp only [step, turn, idle, silent]

theorem step_of_idle_await {s : State} {rest : List HostAction} (idle : s.outstanding = none)
    (next : s.inbox = .await :: rest) : step s = .next (passAction s) := by
  simp only [step, turn, idle, next]

/-- Settles O44: an idle step is a step to the same state. -/
theorem idleCoreKeepsItsRegisters : Obligations.IdleCoreKeepsItsRegisters :=
  fun s n idle silent => run_of_step_self core s (step_of_idle_silent idle silent) n

/-! ### Answering the request in progress -/

theorem step_of_busy {s : State} {q : Request} (busy : s.outstanding = some q)
    (quiet : s.inbox = [] ∨ ∃ rest, s.inbox = .await :: rest) : step s = serve q s := by
  rcases quiet with next | ⟨rest, next⟩ <;> simp only [step, turn, busy, next]

theorem serve_of_ready {q : Request} (ready : awaitsStream q = false) (s : State) :
    serve q s = execute q (release s) := by
  rw [serve, ready]
  rfl

theorem serve_of_awaitsStream {q : Request} (waits : awaitsStream q = true) (s : State) : serve q s = .next s := by
  rw [serve, waits]
  rfl

theorem awaitsStream_eq_false_of_decode {q : Request} {i : Instr} (hd : decode q = .ok i)
    (ended : readsStream i = true → q.ended = true) : awaitsStream q = false := by
  rw [awaitsStream_of_decode hd]
  cases reads : readsStream i with
  | false => rfl
  | true => rw [ended reads]; rfl

/-- Settles O7: the core does not wait, so it answers, and a decoded request is answered by its instruction. -/
theorem stepRunsTheDecodedCommand : Obligations.StepRunsTheDecodedCommand := by
  intro s q i busy quiet hd ended
  have ready : awaitsStream q = false := awaitsStream_eq_false_of_decode hd ended
  rw [step_of_busy busy quiet, serve_of_ready ready, execute_of_decode hd, release]

/-- Settles O8: an illegal request keeps no core waiting, whatever comes with the word. -/
theorem illegalCommandIsAnswered : Obligations.IllegalCommandIsAnswered := by
  intro s q busy quiet illegal
  rw [step_of_busy busy quiet, serve_of_ready (awaitsStream_of_not_mem_commandWords illegal),
    execute_of_not_mem_commandWords illegal]
  rfl

theorem awaitsStream_of_unended {q : Request} (parse : q.cmd = 0x05#8 ∨ q.cmd = 0x15#8) (unended : q.ended = false) :
    awaitsStream q = true := by
  rcases parse with hq | hq
  · rw [awaitsStream_of_decode (decode_of_parse q hq), unended]; rfl
  · rw [awaitsStream_of_decode (decode_of_parseLax q hq), unended]; rfl

/-- Settles O46: the wait is a step to the same state. -/
theorem unterminatedStreamWaitsForEver : Obligations.UnterminatedStreamWaitsForEver := by
  intro s q n busy parse unended quiet
  have waiting : step s = .next s := by
    rw [step_of_busy busy quiet, serve_of_awaitsStream (awaitsStream_of_unended parse unended)]
  exact run_of_step_self core s waiting n

/-! ### Reset -/

theorem step_of_reset {s : State} {rest : List HostAction} (next : s.inbox = .reset :: rest) :
    step s = .next (assertReset s) := by
  cases outstanding : s.outstanding <;> simp only [step, turn, outstanding, next]

theorem response_assertReset (s : State) : (assertReset s).response = State.reset.response := rfl

/-- Settles O42: the values `State.reset` is written with. -/
theorem resetValues : Obligations.ResetValues :=
  ⟨rfl, rfl, rfl, rfl, rfl⟩

/-- Settles O43: reset is taken whatever is in progress, and the core it leaves is idle. -/
theorem resetAbandonsTheRequest : Obligations.ResetAbandonsTheRequest := by
  intro s rest next
  have inbox : (assertReset s).inbox = rest := by rw [assertReset_inbox, next, List.tail_cons]
  refine ⟨assertReset s, step_of_reset next, response_assertReset s, assertReset_outstanding s, inbox,
    fun q more hrest => ⟨accept q (assertReset s), ?_, accept_outstanding .., response_assertReset s⟩⟩
  exact step_of_idle_issue (assertReset_outstanding s) (inbox.trans hrest)

/-! ### The refusal -/

theorem execute_answers (q : Request) (s : State) : ∃ t, execute q s = .next t := by
  rcases execute_cases q with ⟨_, _, -, -, -, -, result⟩ | ⟨_, -, -, -, -, draw⟩ | ⟨-, text⟩ | ⟨_, -, error⟩
  · exact ⟨_, result s⟩
  · exact ⟨_, draw s⟩
  · exact ⟨_, text s⟩
  · exact ⟨_, error s⟩

theorem serve_answers (q : Request) (s : State) : ∃ t, serve q s = .next t := by
  cases waits : awaitsStream q with
  | true => exact ⟨s, serve_of_awaitsStream waits s⟩
  | false =>
    rw [serve_of_ready waits]
    exact execute_answers q (release s)

theorem step_of_busy_issue {s : State} {q q' : Request} {rest : List HostAction} (busy : s.outstanding = some q)
    (next : s.inbox = .issue q' :: rest) : step s = .refused .requestWhileOutstanding := by
  simp only [step, turn, busy, next]

/-- The host issues a request while one is outstanding (R92). -/
def State.secondRequest (s : State) : Prop :=
  s.outstanding.isSome = true ∧ ∃ q rest, s.inbox = .issue q :: rest

theorem step_of_secondRequest {s : State} (second : s.secondRequest) : step s = .refused .requestWhileOutstanding := by
  obtain ⟨busy, q', rest, next⟩ := second
  obtain ⟨q, busy⟩ := Option.isSome_iff_exists.mp busy
  exact step_of_busy_issue busy next

theorem step_answers_of_not_secondRequest {s : State} (single : ¬ s.secondRequest) : ∃ t, step s = .next t := by
  match inbox : s.inbox, outstanding : s.outstanding with
  | [], none => exact ⟨_, step_of_idle_silent outstanding inbox⟩
  | .issue q :: _, none => exact ⟨_, step_of_idle_issue outstanding inbox⟩
  | .await :: _, none => exact ⟨_, step_of_idle_await outstanding inbox⟩
  | .reset :: _, _ => exact ⟨_, step_of_reset inbox⟩
  | [], some q =>
    rw [step_of_busy outstanding (.inl inbox)]
    exact serve_answers q s
  | .await :: rest, some q =>
    rw [step_of_busy outstanding (.inr ⟨rest, inbox⟩)]
    exact serve_answers q s
  | .issue q' :: rest, some q =>
    have second : s.secondRequest := ⟨by rw [outstanding]; rfl, q', rest, inbox⟩
    exact absurd second single

/-- Settles O45: every turn but the second request's answers a next state. -/
theorem onlyASecondRequestIsRefused : Obligations.OnlyASecondRequestIsRefused := by
  refine fun s => ⟨⟨fun refused => ?_, step_of_secondRequest⟩, step_answers_of_not_secondRequest⟩
  by_contra single
  obtain ⟨t, answers⟩ := step_answers_of_not_secondRequest single
  cases answers.symm.trans refused

end Sys2Proof.Machine
end

section
/-! Properties of every run: the invariant of the response registers (spec/10_state.md R20 to R22), a dutiful host is
served (spec/70_reset_and_hazards.md R90), and requests take effect in issue order (spec/20_memory.md R36). -/

namespace Sys2Proof.Machine

open Sys2Proof.Reference

/-! ### The text of FMT -/

theorem encodeSymbol_mem_alphabetChars (sym : Sym) :
    (alphabetChars.map Char.toNat).contains (encodeSymbol sym).toNat = true := by
  revert sym; decide

/-- The first eight entries of ALPHABET are the characters `0` to `7`. -/
theorem encodeSymbol_of_le_seven (sym : Sym) (small : sym.toNat ≤ 7) :
    0x30 ≤ (encodeSymbol sym).toNat ∧ (encodeSymbol sym).toNat ≤ 0x37 := by
  revert sym; decide

theorem formatText_zero_bounds (v : Word) : 0x30 ≤ (formatText v)[0].toNat ∧ (formatText v)[0].toNat ≤ 0x37 := by
  rw [formatText_getElem]
  exact encodeSymbol_of_le_seven _ (group_zero_le_seven v)

theorem exists_symbol_of_mem_formatText {v : Word} {c : Byte} (hc : c ∈ (formatText v).toList) :
    ∃ sym : Sym, c = encodeSymbol sym := by
  rw [formatText, Vector.toList_ofFn, List.mem_ofFn] at hc
  obtain ⟨k, rfl⟩ := hc
  exact ⟨_, rfl⟩

/-- Settles O26: FMT writes ALPHABET entries only, and its first group is at most 7. -/
theorem fmtStaysInTheAlphabet : Obligations.FmtStaysInTheAlphabet := by
  intro v s t h
  cases (exec_fmt v s).symm.trans h
  exact ⟨fun c hc => exists_symbol_of_mem_formatText hc, formatText_zero_bounds v⟩

theorem isText_formatText (v : Word) : isText (formatText v) = true := by
  obtain ⟨lower, upper⟩ := formatText_zero_bounds v
  have inAlphabet : ∀ c ∈ (formatText v).toList, (alphabetChars.map Char.toNat).contains c.toNat = true := by
    intro c hc
    obtain ⟨sym, rfl⟩ := exists_symbol_of_mem_formatText hc
    exact encodeSymbol_mem_alphabetChars sym
  simp only [isText, Bool.and_eq_true, decide_eq_true_eq, List.all_eq_true]
  exact ⟨⟨inAlphabet, lower⟩, upper⟩

/-! ### The invariant of the response registers -/

/-- Settles O47: reset clears ST and COUT_LEN and writes COUT with its reset bytes. -/
theorem invariantHoldsAtReset : Obligations.InvariantHoldsAtReset :=
  ⟨by decide, .inl rfl, .inl rfl⟩

/-- Of the state before, a request keeps at most COUT. -/
theorem execute_keeps_inv {q : Request} {s t : State} (inv : s.Inv) (h : execute q s = .next t) : t.Inv := by
  by_cases hq : q.cmd = 0x04#8
  · cases (execute_of_fmt q s hq).symm.trans h
    have text := isText_formatText q.a
    exact ⟨by rw [respondText_st]; decide, .inr ⟨respondText_coutLen .., respondText_st .., text⟩, .inr text⟩
  · obtain ⟨st, possible, status⟩ := execute_status q
    obtain ⟨hcout, hlen⟩ := execute_text_of_not_fmt q s t hq h
    obtain ⟨-, -, buffer⟩ := inv
    exact ⟨by rwa [status s t h], .inl hlen, by rwa [hcout]⟩

/-- Settles O48: a step leaves the four registers alone, resets them, or answers a request. -/
theorem everyStepKeepsTheInvariant : Obligations.EveryStepKeepsTheInvariant := by
  intro s t inv h
  rcases step_cases s t h with ⟨rfl, -⟩ | ⟨q, -, -, rfl⟩ | ⟨-, -, rfl⟩ | ⟨-, rfl⟩ | ⟨q, -, -, answered⟩
  · exact inv
  · exact inv
  · exact inv
  · exact invariantHoldsAtReset
  · have released : (release s).Inv := inv
    exact execute_keeps_inv released answered

/-! ### A dutiful host -/

theorem dutiful_of_idle {s : State} (idle : s.outstanding = none) : s.dutiful = keepsDuty false s.inbox := by
  rw [State.dutiful, idle]
  exact Bool.and_true _

theorem dutiful_of_busy {s : State} {q : Request} (busy : s.outstanding = some q) :
    s.dutiful = true ↔ keepsDuty true s.inbox = true ∧ awaitsStream q = false := by
  rw [State.dutiful, busy, Bool.and_eq_true]
  simp

theorem keepsDuty_issue (busy : Bool) (q : Request) (rest : List HostAction) :
    keepsDuty busy (.issue q :: rest) = true ↔ busy = false ∧ awaitsStream q = false ∧ keepsDuty true rest = true := by
  simp [keepsDuty, and_assoc]

theorem keepsDuty_await (busy : Bool) (rest : List HostAction) :
    keepsDuty busy (.await :: rest) = keepsDuty false rest := rfl

theorem keepsDuty_reset (busy : Bool) (rest : List HostAction) :
    keepsDuty busy (.reset :: rest) = keepsDuty false rest := rfl

/-- A step serves the host: it takes the machine to a state in which the host still keeps its duties, and answers the
request in progress unless the host asserts reset. -/
def State.served (s : State) : Prop :=
  ∃ t, step s = .next t ∧ t.dutiful = true
    ∧ (s.inbox.head? ≠ some .reset → ∀ q, s.outstanding = some q →
        t.outstanding = none ∧ execute q { s with outstanding := none, inbox := s.inbox.tail } = .next t)

theorem served_of_idle {s t : State} (idle : s.outstanding = none) (h : step s = .next t) (duty : t.dutiful = true) :
    s.served :=
  ⟨t, h, duty, fun _ q busy => by cases idle.symm.trans busy⟩

theorem served_of_reset {s : State} {rest : List HostAction} (next : s.inbox = .reset :: rest)
    (duty : keepsDuty false rest = true) : s.served := by
  refine ⟨assertReset s, step_of_reset next, ?_, fun notReset => absurd (by rw [next]; rfl) notReset⟩
  rwa [dutiful_of_idle (assertReset_outstanding s), assertReset_inbox, next]

theorem served_of_busy {s : State} {q : Request} (busy : s.outstanding = some q)
    (quiet : s.inbox = [] ∨ ∃ rest, s.inbox = .await :: rest) (ready : awaitsStream q = false)
    (duty : keepsDuty false s.inbox.tail = true) : s.served := by
  obtain ⟨t, answer⟩ := execute_answers q (release s)
  obtain ⟨outstanding, inbox⟩ := execute_interface q (release s) t answer
  rw [release_outstanding] at outstanding
  refine ⟨t, by rw [step_of_busy busy quiet, serve_of_ready ready, answer], ?_, fun _ q' busy' => ?_⟩
  · rwa [dutiful_of_idle outstanding, inbox, release_inbox]
  · cases busy.symm.trans busy'
    exact ⟨outstanding, answer⟩

/-- Settles O49, turn by turn: a second request is against the host's duties, and so is a CIN that the core would wait
for. -/
theorem dutifulHostIsAlwaysServed : Obligations.DutifulHostIsAlwaysServed := by
  intro s dutiful
  show s.served
  match outstanding : s.outstanding, inbox : s.inbox with
  | none, [] => exact served_of_idle outstanding (step_of_idle_silent outstanding inbox) dutiful
  | none, .issue q :: rest =>
    rw [dutiful_of_idle outstanding, inbox, keepsDuty_issue] at dutiful
    obtain ⟨-, ready, duty⟩ := dutiful
    refine served_of_idle outstanding (step_of_idle_issue outstanding inbox) ?_
    rw [dutiful_of_busy (accept_outstanding q s), accept_inbox, inbox]
    exact ⟨duty, ready⟩
  | none, .await :: rest =>
    rw [dutiful_of_idle outstanding, inbox, keepsDuty_await] at dutiful
    refine served_of_idle outstanding (step_of_idle_await outstanding inbox) ?_
    rwa [dutiful_of_idle (by rwa [passAction_outstanding]), passAction_inbox, inbox]
  | none, .reset :: rest =>
    rw [dutiful_of_idle outstanding, inbox, keepsDuty_reset] at dutiful
    exact served_of_reset inbox dutiful
  | some q, [] =>
    obtain ⟨-, ready⟩ := (dutiful_of_busy outstanding).mp dutiful
    exact served_of_busy outstanding (.inl inbox) ready (by rw [inbox]; rfl)
  | some q, .issue q' :: rest =>
    rw [dutiful_of_busy outstanding, inbox, keepsDuty_issue] at dutiful
    obtain ⟨⟨idle, -⟩, -⟩ := dutiful
    cases idle
  | some q, .await :: rest =>
    rw [dutiful_of_busy outstanding, inbox, keepsDuty_await] at dutiful
    obtain ⟨duty, ready⟩ := dutiful
    exact served_of_busy outstanding (.inr ⟨rest, inbox⟩) ready (by rwa [inbox])
  | some q, .reset :: rest =>
    rw [dutiful_of_busy outstanding, inbox, keepsDuty_reset] at dutiful
    obtain ⟨duty, -⟩ := dutiful
    exact served_of_reset inbox duty

/-! ### Issue order -/

/-- The host's later actions are not in any response. -/
theorem execute_with_inbox {q : Request} {s t : State} (h : execute q s = .next t) (later : List HostAction) :
    execute q { s with inbox := later } = .next { t with inbox := later } := by
  rcases execute_cases q with ⟨r, b, -, -, -, -, result⟩ | ⟨b, -, -, -, -, draw⟩ | ⟨-, text⟩ | ⟨e, -, error⟩
  · cases (result s).symm.trans h
    exact result _
  · cases (draw s).symm.trans h
    exact draw _
  · cases (text s).symm.trans h
    exact text _
  · cases (error s).symm.trans h
    exact error _

theorem run_succ_of_step {s t : State} (h : step s = .next t) (n : Nat) : core.run (n + 1) s = core.run n t := by
  have coreStep : core.step s = .next t := h
  simp only [Host.Core.run, coreStep]

/-- One request of the script takes two steps: an idle core accepts it, and answers it to the awaiting host. -/
theorem run_issue_await {q : Request} {s t : State} (idle : s.outstanding = none) (ready : awaitsStream q = false)
    (h : execute q s = .next t) (later : List HostAction) (n : Nat) :
    core.run (n + 2) { s with inbox := .issue q :: .await :: later } = core.run n { t with inbox := later } := by
  have released : { s with outstanding := none, inbox := later } = { s with inbox := later } := by rw [← idle]
  have answered : step { s with outstanding := some q, inbox := .await :: later } = .next { t with inbox := later } := by
    rw [step_of_busy rfl (.inr ⟨later, rfl⟩), serve_of_ready ready, release]
    simp only [List.tail_cons, released]
    exact execute_with_inbox h later
  have accepted : step { s with inbox := .issue q :: .await :: later }
      = .next { s with outstanding := some q, inbox := .await :: later } := step_of_idle_issue idle rfl
  exact (run_succ_of_step accepted (n + 1)).trans (run_succ_of_step answered n)

theorem script_cons (q : Request) (qs : List Request) : script (q :: qs) = .issue q :: .await :: script qs := rfl

theorem answerAll_cons {q : Request} {s t : State} (h : execute q s = .next t) (qs : List Request) :
    answerAll (q :: qs) s = answerAll qs t := by
  rw [answerAll, h]

/-- Settles O50, by induction on the requests, an idle core between any two. -/
theorem requestsTakeEffectInIssueOrder : Obligations.RequestsTakeEffectInIssueOrder := by
  intro qs
  induction qs with
  | nil =>
    intro s idle silent _ n hn
    obtain rfl : n = 0 := Nat.le_zero.mp hn
    exact ⟨s, rfl, idle, silent, rfl⟩
  | cons q qs ih =>
    intro s idle silent ready n hn
    cases n with
    | zero => exact ⟨s, rfl, idle, silent, rfl⟩
    | succ n =>
      obtain ⟨s', answer⟩ := execute_answers q s
      obtain ⟨outstanding, inbox⟩ := execute_interface q s s' answer
      obtain ⟨t, answers, idle', silent', run⟩ :=
        ih s' (outstanding.trans idle) (inbox.trans silent) (fun p hp => ready p (List.mem_cons_of_mem q hp)) n
          (Nat.le_of_succ_le_succ hn)
      refine ⟨t, ?_, idle', silent', ?_⟩
      · rw [List.take_succ_cons, answerAll_cons answer, answers]
      · rw [script_cons, Nat.mul_succ, run_issue_await idle (ready q List.mem_cons_self) answer, run,
          List.drop_succ_cons]

end Sys2Proof.Machine
end

section
/-! Laws of the binary layout: the timestamp comes back from PACK through XTS, and CMP's order is that of the values and
of (timestamp, entropy) (spec/20_memory.md R31, spec/40_layout.md R51 and R53). -/

namespace Sys2Proof.Machine

/-! ### The timestamp round trip -/

theorem timestampOf_packIdentifier_truncated_toNat (ms : BitVec 64) (ent : BitVec 80) :
    ((timestampOf (packIdentifier (ms.extractLsb' 0 48) ent)).setWidth 128).toNat = ms.toNat % 2 ^ 48 := by
  rw [timestampOf_packIdentifier, BitVec.toNat_setWidth, BitVec.extractLsb'_toNat, Nat.shiftRight_zero]
  omega

/-- Settles O17: XTS slices off the field PACK placed, which is the truncated timestamp. -/
theorem timestampRoundTrip : Obligations.TimestampRoundTrip := fun ms ent s =>
  have value := timestampOf_packIdentifier_truncated_toNat ms ent
  ⟨_, _, exec_pack ms ent s, exec_xts _ _, value, fun small => value.trans (Nat.mod_eq_of_lt small)⟩

/-! ### The order of the values -/

theorem orderCode_eq_neg_one_iff (m n : Nat) : orderCode m n = 0b11#2 ↔ m < n := by
  rcases lt_trichotomy m n with h | rfl | h
  · simp [orderCode_of_lt h, h]
  · simp
  · simp [orderCode_of_gt h, h.le]

theorem orderCode_eq_zero_iff (m n : Nat) : orderCode m n = 0b00#2 ↔ m = n := by
  rcases lt_trichotomy m n with h | rfl | h
  · simp [orderCode_of_lt h, h.ne]
  · simp
  · simp [orderCode_of_gt h, h.ne']

theorem orderCode_eq_one_iff (m n : Nat) : orderCode m n = 0b01#2 ↔ n < m := by
  rcases lt_trichotomy m n with h | rfl | h
  · simp [orderCode_of_lt h, h.le]
  · simp
  · simp [orderCode_of_gt h, h]

/-- A value is its timestamp above 80 bits of entropy. -/
theorem lt_iff_timestamp_entropy (a b : Word) :
    a.toNat < b.toNat ↔ (timestampOf a).toNat < (timestampOf b).toNat
      ∨ ((timestampOf a).toNat = (timestampOf b).toNat ∧ (entropyOf a).toNat < (entropyOf b).toNat) := by
  rw [timestampOf_toNat, timestampOf_toNat, entropyOf_toNat, entropyOf_toNat]
  omega

/-- Settles O19: byte-serial comparison answers the order code of the values, whose three codes differ. -/
theorem byteOrderIsValueOrder : Obligations.ByteOrderIsValueOrder := by
  intro a b
  rw [compareBytes_idBytes, orderCode_eq_neg_one_iff, orderCode_eq_zero_iff, orderCode_eq_one_iff]
  exact ⟨Iff.rfl, BitVec.toNat_inj, Iff.rfl, lt_iff_timestamp_entropy a b⟩

/-! ### The comparison laws -/

/-- CMP's R read as a signed number. -/
theorem toInt_signExtend_orderCode (m n : Nat) :
    ((orderCode m n).signExtend 128).toInt = if m < n then -1 else if n < m then 1 else 0 := by
  rw [BitVec.toInt_signExtend_of_le (by decide), orderCode]
  split
  · rfl
  · split <;> rfl

/-- Settles O20, by which of the two values is the smaller. -/
theorem comparisonLaws : Obligations.ComparisonLaws := by
  intro a b s
  refine ⟨_, _, _, exec_cmp a b s, exec_cmp b a s, exec_cmp a a s, ?_⟩
  simp only [respondResult_r, toInt_signExtend_orderCode]
  refine ⟨by simp, ?antisymmetric, ?zero, fun earlier => ?timestamp⟩
  case antisymmetric =>
    rcases lt_trichotomy a.toNat b.toNat with h | h | h
    · rw [if_pos h, if_neg h.asymm, if_pos h]
    · simp [h]
    · rw [if_neg h.asymm, if_pos h, if_pos h]
      rfl
  case zero =>
    rcases lt_trichotomy a.toNat b.toNat with h | h | h
    · simp [h, BitVec.toNat_inj.not.mp h.ne]
    · simp [BitVec.toNat_inj.mp h]
    · simp [h, h.asymm, BitVec.toNat_inj.not.mp h.ne']
  case timestamp =>
    have smaller : a.toNat < b.toNat := lt_of_not_ge fun h => earlier.not_ge (Nat.div_le_div_right h)
    exact if_pos smaller

end Sys2Proof.Machine
end

section
/-! FMT and the parsers against each other: an identifier is the base-32 numeral of its 26 groups, so that its text orders
as its value does, parses back to it, and is the canonical spelling of whatever parsed to it (spec/41_symbols.md R56,
spec/42_format.md R64, spec/43_parse.md R69 to R73). -/

namespace Sys2Proof.Machine

open Sys2Proof.Reference

/-! ### The two tables -/

theorem decodeChar_encodeSymbol (sym : Sym) : decodeChar (encodeSymbol sym) = { valid := true, sym := sym } := by
  revert sym; decide

theorem encodeSymbol_decodeChar (c : Byte) (valid : (decodeChar c).valid = true) :
    (encodeSymbol (decodeChar c).sym).toNat = canonicalChar c.toNat := by
  revert c; decide

/-- Settles O12, entry by entry. -/
theorem tablesAreInverse : Obligations.TablesAreInverse :=
  ⟨decodeChar_encodeSymbol, encodeSymbol_decodeChar⟩

@[simp] theorem symbolValue_encodeSymbol (sym : Sym) : symbolValue (encodeSymbol sym) = sym.toNat := by
  rw [← decodeChar_sym_toNat, decodeChar_encodeSymbol]

@[simp] theorem hasSymbol_encodeSymbol (sym : Sym) : hasSymbol (encodeSymbol sym) = true := by
  rw [← decodeChar_valid, decodeChar_encodeSymbol]

theorem charCode_symbolValue {c : Byte} (valid : hasSymbol c = true) :
    charCode (symbolValue c) = canonicalChar c.toNat := by
  rw [← decodeChar_sym_toNat, ← encodeSymbol_toNat]
  exact encodeSymbol_decodeChar c ((decodeChar_valid c).trans valid)

/-! ### The groups of an identifier -/

/-- The 26 groups of V, d[0] first (R60). -/
def groupsOf (v : Word) : List Sym := (List.finRange 26).map (group (paddedView v))

/-- The number whose base-32 digits are the symbols, the first one most significant. -/
def symbolsValue (ds : List Sym) : Nat := ds.foldl (fun n d => 32 * n + d.toNat) 0

@[simp] theorem groupsOf_length (v : Word) : (groupsOf v).length = 26 := by simp [groupsOf]

theorem formatText_toList (v : Word) : (formatText v).toList = (groupsOf v).map encodeSymbol := by
  rw [formatText, Vector.toList_ofFn, List.ofFn_eq_map, groupsOf, List.map_map]
  rfl

theorem groupsOf_map_toNat (v : Word) :
    (groupsOf v).map BitVec.toNat = (List.range 26).map fun k => v.toNat / 32 ^ (25 - k) % 32 := by
  rw [groupsOf, List.map_map, ← List.map_coe_finRange_eq_range, List.map_map]
  exact List.map_congr_left fun k _ => group_paddedView_toNat v k

theorem symbolsValue_groupsOf (v : Word) : symbolsValue (groupsOf v) = v.toNat := by
  calc symbolsValue (groupsOf v)
      = ((groupsOf v).map BitVec.toNat).foldl (fun n d => 32 * n + d) 0 := by rw [List.foldl_map, symbolsValue]
    _ = v.toNat / 32 ^ (26 - 26) % 32 ^ 26 := by rw [groupsOf_map_toNat]; exact foldl_digits 32 26 v.toNat 26 le_rfl
    _ = v.toNat := by have := v.isLt; omega

/-- The groups are the only 26 symbols that read as V. -/
theorem groupsOf_eq_of_symbolsValue {v : Word} {ds : List Sym} (hlen : ds.length = 26)
    (value : symbolsValue ds = v.toNat) : groupsOf v = ds := by
  refine List.ext_getElem (by rw [groupsOf_length, hlen]) fun k hk hk' => BitVec.eq_of_toNat_eq ?_
  have digit := foldl_symbols_digit ds k hk'
  rw [← symbolsValue, value, hlen] at digit
  simp only [groupsOf, List.getElem_map, List.getElem_finRange, group_paddedView_toNat]
  exact digit

/-! ### Texts order as values -/

theorem encodeSymbol_lt_iff (x y : Sym) : (encodeSymbol x).toNat < (encodeSymbol y).toNat ↔ x.toNat < y.toNat := by
  revert x y; decide

theorem encodeSymbol_eq_iff (x y : Sym) : (encodeSymbol x).toNat = (encodeSymbol y).toNat ↔ x.toNat = y.toNat := by
  have lower := encodeSymbol_lt_iff x y
  have upper := encodeSymbol_lt_iff y x
  omega

/-- Two numerals of one length, read on from `m` and from `n`, order as `m` and `n` do, and between equals as their
texts do. -/
theorem foldl_symbols_lt_iff (xs : List Sym) : ∀ (ys : List Sym) (m n : Nat), xs.length = ys.length →
    (xs.foldl (fun n d => 32 * n + d.toNat) m < ys.foldl (fun n d => 32 * n + d.toNat) n
      ↔ m < n ∨ m = n ∧ xs.map (fun d => (encodeSymbol d).toNat) < ys.map fun d => (encodeSymbol d).toNat) := by
  induction xs with
  | nil =>
    intro ys m n h
    obtain rfl : ys = [] := List.length_eq_zero_iff.mp h.symm
    simp
  | cons x xs ih =>
    intro ys m n h
    cases ys with
    | nil => simp at h
    | cons y ys =>
      have hx := x.isLt
      have hy := y.isLt
      have lower : 32 * m + x.toNat < 32 * n + y.toNat ↔ m < n ∨ m = n ∧ x.toNat < y.toNat := by omega
      have equal : 32 * m + x.toNat = 32 * n + y.toNat ↔ m = n ∧ x.toNat = y.toNat := by omega
      rw [List.foldl_cons, List.foldl_cons, ih ys _ _ (by simpa using h), List.map_cons, List.map_cons,
        List.cons_lt_cons_iff, encodeSymbol_lt_iff, encodeSymbol_eq_iff, lower, equal]
      tauto

theorem formatText_lt_iff (v w : Word) :
    (formatText v).toList.map BitVec.toNat < (formatText w).toList.map BitVec.toNat ↔ v.toNat < w.toNat := by
  have order := foldl_symbols_lt_iff (groupsOf v) (groupsOf w) 0 0 (by rw [groupsOf_length, groupsOf_length])
  rw [← symbolsValue, ← symbolsValue, symbolsValue_groupsOf, symbolsValue_groupsOf] at order
  rw [order, formatText_toList, formatText_toList, List.map_map, List.map_map]
  simp [Function.comp_def]

theorem formatText_injective {v w : Word} (same : formatText v = formatText w) : v = w := by
  have lower : ¬ v.toNat < w.toNat := by
    rw [← formatText_lt_iff, same]
    exact List.lt_irrefl _
  have upper : ¬ w.toNat < v.toNat := by
    rw [← formatText_lt_iff, same]
    exact List.lt_irrefl _
  exact BitVec.eq_of_toNat_eq (by omega)

/-- Settles O27: the groups are V's base-32 digits, and ALPHABET is increasing. -/
theorem fmtKeepsTheOrder : Obligations.FmtKeepsTheOrder := by
  intro v w s s' t u ht hu
  cases (exec_fmt v s).symm.trans ht
  cases (exec_fmt w s').symm.trans hu
  exact ⟨⟨formatText_injective, congrArg formatText⟩, formatText_lt_iff v w⟩

/-! ### Where PARSE accepts -/

theorem exec_parse_accepted {cin : List Byte} {s t : State} (h : exec (.parse cin) s = .next t)
    (accepted : stErr t.st = false) :
    cin.length = 26 ∧ (∀ c ∈ cin, hasSymbol c = true)
      ∧ t = respondResult (BitVec.ofNat 128 (base32Value cin)) (if firstIsTop cin then 0x10#8 else 0x00#8) s := by
  have noError := (exec_parse_stErr h).not.mp (Bool.eq_false_iff.mp accepted)
  simp only [not_or, not_not, not_exists, not_and, Bool.not_eq_false] at noError
  obtain ⟨hlen, good⟩ := noError
  obtain ⟨-, -, answer⟩ := parseIsStrict.2 cin s
  cases (answer hlen good).symm.trans h
  exact ⟨hlen, good, rfl⟩

theorem laxStatus_of_valid {cin : List Byte} (hlen : cin.length = 26) (good : ∀ c ∈ cin, hasSymbol c = true) :
    laxStatus cin = if firstIsTop cin then 0x10#8 else 0x00#8 := by
  have flag : anyInvalid cin = false := by rwa [anyInvalid_eq_false_iff, List.take_of_length_le hlen.le]
  rw [laxStatus, flag, hlen, ← statusWord_topBits, firstSymbolTop_eq_firstIsTop]
  rfl

/-- Settles O32: of 26 valid bytes, PARSE.LAX has no more to report than PARSE. -/
theorem laxAgreesWhereStrictAccepts : Obligations.LaxAgreesWhereStrictAccepts := by
  intro cin s t h accepted
  obtain ⟨hlen, good, rfl⟩ := exec_parse_accepted h accepted
  rw [exec_parseLax_of_long hlen.ge, List.take_of_length_le hlen.le, laxStatus_of_valid hlen good]

/-! ### Parsing a text back -/

theorem formatText_length (v : Word) : (formatText v).toList.length = 26 := by
  rw [formatText_toList, List.length_map, groupsOf_length]

theorem hasSymbol_of_mem_formatText {v : Word} {c : Byte} (hc : c ∈ (formatText v).toList) : hasSymbol c = true := by
  obtain ⟨sym, rfl⟩ := exists_symbol_of_mem_formatText hc
  exact hasSymbol_encodeSymbol sym

theorem base32Value_map_encodeSymbol (ds : List Sym) : base32Value (ds.map encodeSymbol) = symbolsValue ds := by
  simp only [base32Value, symbolsValue, List.foldl_map, symbolValue_encodeSymbol]

theorem base32Value_formatText (v : Word) : base32Value (formatText v).toList = v.toNat := by
  rw [formatText_toList, base32Value_map_encodeSymbol, symbolsValue_groupsOf]

theorem firstIsTop_formatText (v : Word) : firstIsTop (formatText v).toList = false := by
  have small := group_zero_le_seven v
  rw [formatText_toList, groupsOf, List.finRange_succ, List.map_cons, List.map_cons, firstIsTop,
    symbolValue_encodeSymbol, decide_eq_false_iff_not]
  exact not_le.mpr (Nat.lt_succ_of_le small)

theorem exec_parse_formatText (v : Word) (s : State) :
    exec (.parse (formatText v).toList) s = .next (respondResult v 0x00#8 s) := by
  obtain ⟨-, -, accepted⟩ := parseIsStrict.2 (formatText v).toList s
  rw [accepted (formatText_length v) fun c hc => hasSymbol_of_mem_formatText hc, base32Value_formatText,
    firstIsTop_formatText, BitVec.ofNat_toNat, BitVec.setWidth_eq]
  rfl

/-- Settles O33: a text reads as its value, and PARSE.LAX follows PARSE. -/
theorem parseOfFormatIsIdentity : Obligations.ParseOfFormatIsIdentity := by
  intro v s t s' h
  cases (exec_fmt v s).symm.trans h
  have strict := exec_parse_formatText v s'
  exact ⟨strict, laxAgreesWhereStrictAccepts _ _ _ strict (show stErr 0x00#8 = false by decide)⟩

/-! ### Formatting what was parsed -/

theorem symbolsValue_cons (d : Sym) (ds : List Sym) :
    symbolsValue (d :: ds) = d.toNat * 32 ^ ds.length + symbolsValue ds := by
  induction ds using List.reverseRecOn with
  | nil => simp [symbolsValue]
  | append_singleton ds e ih =>
    simp only [symbolsValue, ← List.cons_append, List.foldl_append, List.foldl_cons, List.foldl_nil] at ih ⊢
    rw [ih, List.length_append, List.length_singleton, pow_succ]
    ring

theorem base32Value_eq_symbolsValue (cin : List Byte) :
    base32Value cin = symbolsValue (cin.map fun c => (decodeChar c).sym) := by
  simp only [base32Value, symbolsValue, List.foldl_map, decodeChar_sym_toNat]

/-- Cutting the value to 128 bits cuts the first of 26 symbols to three bits (R66). -/
theorem groupsOf_base32Value (c : Byte) (cs : List Byte) (hlen : cs.length = 25) :
    groupsOf (BitVec.ofNat 128 (base32Value (c :: cs)))
      = BitVec.ofNat 5 (symbolValue c % 8) :: cs.map fun c => (decodeChar c).sym := by
  have fits : symbolsValue (cs.map fun c => (decodeChar c).sym) < 32 ^ 25 := by
    have bound := foldl_symbols_lt (cs.map fun c => (decodeChar c).sym)
    rwa [List.length_map, hlen] at bound
  refine groupsOf_eq_of_symbolsValue (by simp [hlen]) ?_
  rw [base32Value_eq_symbolsValue, List.map_cons, symbolsValue_cons, symbolsValue_cons, List.length_map, hlen,
    decodeChar_sym_toNat, BitVec.toNat_ofNat, BitVec.toNat_ofNat]
  omega

theorem formatText_base32Value (c : Byte) (cs : List Byte) (hlen : cs.length = 25)
    (good : ∀ b ∈ cs, hasSymbol b = true) :
    (formatText (BitVec.ofNat 128 (base32Value (c :: cs)))).toList.map BitVec.toNat
      = charCode (symbolValue c % 8) :: cs.map fun b => canonicalChar b.toNat := by
  have first : (encodeSymbol (BitVec.ofNat 5 (symbolValue c % 8))).toNat = charCode (symbolValue c % 8) := by
    rw [encodeSymbol_toNat, BitVec.toNat_ofNat]
    congr 1
    omega
  have others : ∀ b ∈ cs, (encodeSymbol (decodeChar b).sym).toNat = canonicalChar b.toNat := fun b hb =>
    encodeSymbol_decodeChar b ((decodeChar_valid b).trans (good b hb))
  rw [formatText_toList, groupsOf_base32Value c cs hlen, List.map_map, List.map_cons, List.map_map, Function.comp_apply,
    first]
  exact congrArg _ (List.map_congr_left others)

/-- Settles O34: the text of the parsed value spells each symbol canonically, the first one modulo 8, which is itself
where TOPBITS is 0. -/
theorem formatOfParseIsCanonical : Obligations.FormatOfParseIsCanonical := by
  intro cin s t u h accepted hu
  obtain ⟨hlen, good, rfl⟩ := exec_parse_accepted h accepted
  cases (exec_fmt _ _).symm.trans hu
  obtain ⟨c, cs, rfl⟩ := List.exists_cons_of_length_eq_add_one hlen
  obtain ⟨validFirst, validRest⟩ := List.forall_mem_cons.mp good
  have text := formatText_base32Value c cs (Nat.succ.inj hlen) validRest
  refine ⟨fun low => ?topBitsZero, fun _ => text⟩
  case topBitsZero =>
    rw [respondResult_st, ← statusWord_topBits, stTopBits_statusWord, firstIsTop, decide_eq_false_iff_not] at low
    rw [respondText_cout, respondResult_r, text, Nat.mod_eq_of_lt (not_le.mp low), charCode_symbolValue validFirst]
    rfl

end Sys2Proof.Machine
end

section
/-! The two byte tables (spec/42_format.md R61 and spec/43_parse.md R67): bytes and groups are both slices of one number,
and each row puts slices together by shifting and masking. -/

namespace Sys2Proof.Machine

open Sys2Proof.Reference

/-! ### Slices of a number -/

/-- Bits `p` to `p + n - 1` of `v`. -/
def slice (v p n : Nat) : Nat := v / 2 ^ p % 2 ^ n

theorem testBit_slice (v p n j : Nat) : (slice v p n).testBit j = (decide (j < n) && v.testBit (p + j)) := by
  rw [slice, Nat.testBit_mod_two_pow, Nat.testBit_div_two_pow, Nat.add_comm]

/-- Shifting a slice right drops its low bits. -/
theorem slice_shiftRight (v p n c : Nat) : slice v p n >>> c = slice v (p + c) (n - c) := by
  refine Nat.eq_of_testBit_eq fun j => ?_
  rw [Nat.testBit_shiftRight, testBit_slice, testBit_slice, Nat.add_assoc]
  congr 2
  exact propext (by omega)

/-- Masking a slice keeps its low bits. -/
theorem slice_and_mask (v p n m : Nat) (narrower : m ≤ n) : slice v p n &&& (2 ^ m - 1) = slice v p m := by
  rw [Nat.and_two_pow_sub_one_eq_mod, slice, Nat.mod_mod_of_dvd _ (pow_dvd_pow 2 narrower), slice]

/-- The five masks of the tables, as low bits of a slice that is a byte or a symbol. -/
theorem slice_and_literal (v p n : Nat) (wide : 5 ≤ n) :
    slice v p n &&& 0x01 = slice v p 1 ∧ slice v p n &&& 0x03 = slice v p 2 ∧ slice v p n &&& 0x07 = slice v p 3
      ∧ slice v p n &&& 0x0F = slice v p 4 ∧ slice v p n &&& 0x1F = slice v p 5 :=
  ⟨slice_and_mask v p n 1 (by omega), slice_and_mask v p n 2 (by omega), slice_and_mask v p n 3 (by omega),
    slice_and_mask v p n 4 (by omega), slice_and_mask v p n 5 wide⟩

/-- Two adjacent slices put side by side are one. -/
theorem slice_shiftLeft_or_slice (v p m n q : Nat) (adjacent : q = p + n) :
    slice v q m <<< n ||| slice v p n = slice v p (m + n) := by
  refine Nat.eq_of_testBit_eq fun j => ?_
  rw [Nat.testBit_or, Nat.testBit_shiftLeft, testBit_slice, testBit_slice, testBit_slice, adjacent]
  by_cases low : j < n
  · simp [low, Nat.not_le.mpr low, Nat.lt_add_left m low]
  · have place : p + n + (j - n) = p + j := by omega
    have high : j - n < m ↔ j < m + n := by omega
    simp [low, Nat.le_of_not_lt low, place, high]

/-- Beyond the top bit of `v` a slice holds nothing. -/
theorem slice_of_lt {v p m n : Nat} (small : v < 2 ^ (p + m)) (narrower : m ≤ n) : slice v p n = slice v p m := by
  have bound : v / 2 ^ p < 2 ^ m := Nat.div_lt_of_lt_mul (by rwa [← pow_add])
  have wider : v / 2 ^ p < 2 ^ n := bound.trans_le (Nat.pow_le_pow_right (by decide) narrower)
  rw [slice, slice, Nat.mod_eq_of_lt bound, Nat.mod_eq_of_lt wider]

theorem byteOf_eq_slice (v i : Nat) : byteOf v i = slice v (8 * (15 - i)) 8 := by
  rw [byteOf, slice, show (256 : ℕ) = 2 ^ 8 from rfl, ← pow_mul]

/-! ### The groups from the bytes -/

theorem group_paddedView_eq_slice (v : Word) (k : Fin 26) :
    (group (paddedView v) k).toNat = slice v.toNat (125 - 5 * k.val) 5 :=
  group_paddedView_toNat_bits v k

/-- Settles O25: each row names the bits of its group; in row 0 the group's two high bits are beyond V. -/
theorem groupsFromBytesTable : Obligations.GroupsFromBytesTable := by
  intro v
  have top : slice v.toNat 125 5 = slice v.toNat 125 3 := slice_of_lt v.isLt (by decide)
  have rows : (List.finRange 26).map (fun k => (group (paddedView v) k).toNat)
      = (List.range 26).map fun k => slice v.toNat (125 - 5 * k) 5 := by
    rw [← List.map_coe_finRange_eq_range, List.map_map]
    exact List.map_congr_left fun k _ => group_paddedView_eq_slice v k
  rw [rows]
  simp (disch := decide) only [List.range, List.range.loop, List.map, groupsFromBytes, byteOf_eq_slice,
    slice_and_literal, slice_shiftRight, slice_shiftLeft_or_slice, top]

/-! ### The bytes from the symbols -/

theorem symbol_eq_slice {ds : List Sym} (hlen : ds.length = 26) (k : Nat) (hk : k < 26) :
    (ds.getD k 0#5).toNat = slice (concatSymbols ds).toNat (125 - 5 * k) 5 := by
  rw [List.getD_eq_getElem ds 0#5 (by omega), ← group_concatSymbols ds hlen ⟨k, hk⟩, group, BitVec.extractLsb'_toNat,
    Nat.shiftRight_eq_div_pow, slice]

theorem byteOf_reassemble (ds : List Sym) (i : Nat) :
    byteOf (reassemble ds).toNat i = slice (concatSymbols ds).toNat (8 * (15 - i)) 8 := by
  have place : (2 : ℕ) ^ 128 = 2 ^ (8 * (15 - i)) * 2 ^ (128 - 8 * (15 - i)) := by
    rw [← pow_add]; congr 1; omega
  have byte : (2 : ℕ) ^ 8 ∣ 2 ^ (128 - 8 * (15 - i)) := pow_dvd_pow 2 (by omega)
  rw [byteOf_eq_slice, reassemble_toNat, slice, place, Nat.mod_mul_right_div_self, Nat.mod_mod_of_dvd _ byte, slice]

/-- Settles O29: each row names the bits of its byte in the 130-bit value the symbols make. -/
theorem bytesFromSymbolsTable : Obligations.BytesFromSymbolsTable := by
  intro ds hlen
  simp (disch := decide) only [List.range, List.range.loop, List.map, bytesFromSymbols, byteOf_reassemble,
    symbol_eq_slice hlen, slice_and_literal, slice_shiftRight, slice_shiftLeft_or_slice, Nat.or_assoc]

end Sys2Proof.Machine
end
